-- ==== Sys2Proof/Word.lean ====
section
/-! DEFINITION. The two word types of the block: the 8-bit byte of a record (10_state.md R22) and the 32-bit command
word (30_encoding.md R70). Counts, indices, ticks and microseconds are natural numbers (00_scope.md R12, 41_bitfield.md R137). -/

namespace Sys2Proof

/-- One byte of a record; bit 0 is the least significant bit (R11). -/
abbrev Byte := BitVec 8

/-- One command word W, bits W[31] to W[0] (R70). -/
abbrev Word := BitVec 32

end Sys2Proof
end

