-- ==== Sys2Proof/Syntax.lean ====
section
/-! DEFINITION. The 26 commands of spec/opcode_table.json, one constructor a row, with the operands of their formats
(30_encoding.md R71 to R75). An operand that the rules use as a number (a byte index, a bit index, a width, a bit count, an
offset) is a natural number whose field width WellFormed checks; VAL, which the rules mask and shift, is a byte. -/

namespace Sys2Proof

/-- The record a command with a SEL field works on (R72): `W.SEL = 0` selects REC, `W.SEL = 1` selects CAND. -/
inductive Sel where
  | record
  | cand
  deriving DecidableEq, Repr

/-- The commands (R76). -/
inductive Instr where
  /-- RESETREC (format N, R100). -/
  | resetrec
  /-- GETBIT SEL, BYTE, BIT (format B, R131). -/
  | getbit (sel : Sel) (byte bit : Nat)
  /-- SETBIT SEL, BYTE, BIT, VAL (format B, R132). -/
  | setbit (sel : Sel) (byte bit : Nat) (val : Byte)
  /-- GETBITS SEL, BYTE, BIT, WIDTH (format B, R133). -/
  | getbits (sel : Sel) (byte start width : Nat)
  /-- SETBITS SEL, BYTE, BIT, WIDTH, VAL (format B, R134). -/
  | setbits (sel : Sel) (byte start width : Nat) (val : Byte)
  /-- CSUM SEL (format R, R141). -/
  | csum (sel : Sel)
  /-- STAMP SEL (format R, R142). -/
  | stamp (sel : Sel)
  /-- ISVALID SEL (format R, R143). -/
  | isvalid (sel : Sel)
  /-- ENCODE SEL, REP (format V, R151). -/
  | encode (sel : Sel) (rep : Byte)
  /-- DECODE STRICT, NBITS, OFFSET (format D, R160). -/
  | decode (strict : Bool) (nbits offset : Nat)
  /-- SETPOWER SEL, VAL (format V, R102). -/
  | setpower (sel : Sel) (val : Byte)
  /-- GETPOWER SEL (format R, R103). -/
  | getpower (sel : Sel)
  /-- SETMODE SEL, VAL (format V, R104). -/
  | setmode (sel : Sel) (val : Byte)
  /-- GETMODE SEL (format R, R105). -/
  | getmode (sel : Sel)
  /-- SETTEMP SEL, VAL (format V, R106). -/
  | settemp (sel : Sel) (val : Byte)
  /-- GETTEMP SEL (format R, R107). -/
  | gettemp (sel : Sel)
  /-- SETFAN SEL, VAL (format V, R108). -/
  | setfan (sel : Sel) (val : Byte)
  /-- GETFAN SEL (format R, R109). -/
  | getfan (sel : Sel)
  /-- SETSWING SEL, VAL (format V, R110). -/
  | setswing (sel : Sel) (val : Byte)
  /-- GETSWING SEL (format R, R111). -/
  | getswing (sel : Sel)
  /-- SETTURBO SEL, VAL (format V, R112). -/
  | setturbo (sel : Sel) (val : Byte)
  /-- GETTURBO SEL (format R, R113). -/
  | getturbo (sel : Sel)
  /-- SETLIGHT SEL, VAL (format V, R114). -/
  | setlight (sel : Sel) (val : Byte)
  /-- GETLIGHT SEL (format R, R115). -/
  | getlight (sel : Sel)
  /-- SETSLEEP SEL, VAL (format V, R116). -/
  | setsleep (sel : Sel) (val : Byte)
  /-- GETSLEEP SEL (format R, R117). -/
  | getsleep (sel : Sel)
  deriving DecidableEq, Repr

end Sys2Proof
end

