-- ==== Sys2Proof/WellFormed.lean ====
section
/-! DEFINITION. An instruction is well formed when every operand fits its field of the command word (30_encoding.md R78); an
assembler refuses the others (R81). An operand that fits its field but is out of range (BYTE = 18, WIDTH = 0) IS well
formed: the block rejects it at run time with E_RANGE (R79). -/

namespace Sys2Proof

/-- `BYTE = W[23:19]`: 0 to 31 (R78). -/
abbrev fitsByte (n : Nat) : Bool := decide (n < 32)

/-- `BIT = W[18:16]`: 0 to 7 (R78). -/
abbrev fitsBit (n : Nat) : Bool := decide (n < 8)

/-- `WIDTH = W[15:12]`: 0 to 15 (R78). -/
abbrev fitsWidth (n : Nat) : Bool := decide (n < 16)

/-- `NBITS = W[24:16]`: 0 to 511 (R78). -/
abbrev fitsNbits (n : Nat) : Bool := decide (n < 512)

/-- `OFFSET = W[15:0]`: 0 to 65535 (R78). -/
abbrev fitsOffset (n : Nat) : Bool := decide (n < 65536)

/-- Every operand fits its field. -/
def Instr.wf : Instr → Bool
  | .resetrec => true
  | .getbit _ byte bit => fitsByte byte && fitsBit bit
  | .setbit _ byte bit _ => fitsByte byte && fitsBit bit
  | .getbits _ byte start width => fitsByte byte && fitsBit start && fitsWidth width
  | .setbits _ byte start width _ => fitsByte byte && fitsBit start && fitsWidth width
  | .csum _ => true
  | .stamp _ => true
  | .isvalid _ => true
  | .encode _ _ => true
  | .decode _ nbits offset => fitsNbits nbits && fitsOffset offset
  | .setpower _ _ => true
  | .getpower _ => true
  | .setmode _ _ => true
  | .getmode _ => true
  | .settemp _ _ => true
  | .gettemp _ => true
  | .setfan _ _ => true
  | .getfan _ => true
  | .setswing _ _ => true
  | .getswing _ => true
  | .setturbo _ _ => true
  | .getturbo _ => true
  | .setlight _ _ => true
  | .getlight _ => true
  | .setsleep _ _ => true
  | .getsleep _ => true

end Sys2Proof
end

