-- ==== Sys2Proof/Decode.lean ====
section
/-! DEFINITION. The decoder of command words (30_encoding.md R70 to R80), total on every 32-bit word and rejecting by name;
the encoder; the opcode map of R76 as mask and match rows; and the host's view of the decoder (decodeTableWord). -/

namespace Sys2Proof

/-- `v[hi:lo]` of a command word as an unsigned number (R12). -/
def bitField (w : Word) (hi lo : Nat) : Nat := (w.extractLsb hi lo).toNat

/-- Why a word is illegal (R77): its OP is reserved, or a "must be 0" field of an assigned OP is nonzero. -/
inductive DecodeError where
  | reservedOpcode (op : Nat)
  | reservedBits (op : Nat)
  deriving DecidableEq, Repr

/-- `OP = W[31:26]`, present in every format (R70). -/
def opField (w : Word) : Nat := bitField w 31 26

/-- `SEL = W[25]` (R78). -/
def selField (w : Word) : Sel := if bitField w 25 25 = 1 then .cand else .record

/-- `STRICT = W[25]` (R78). -/
def strictField (w : Word) : Bool := decide (bitField w 25 25 = 1)

/-- `VAL = W[7:0]` (R78). -/
def valField (w : Word) : Byte := BitVec.ofNat 8 (bitField w 7 0)

/-- The instruction, if the word's "must be 0" fields are 0 (R77). -/
def ifZero (w : Word) (reserved : Bool) (i : Instr) : Except DecodeError Instr :=
  if reserved then .ok i else .error (.reservedBits (opField w))

/-- Format N (R71): `W[25:0]` must be 0. -/
def formatN (w : Word) (i : Instr) : Except DecodeError Instr :=
  ifZero w (bitField w 25 0 == 0) i

/-- Format R (R72): `W[24:0]` must be 0. -/
def formatR (w : Word) (f : Sel → Instr) : Except DecodeError Instr :=
  ifZero w (bitField w 24 0 == 0) (f (selField w))

/-- Format V (R73): `W[24:8]` must be 0. -/
def formatV (w : Word) (f : Sel → Byte → Instr) : Except DecodeError Instr :=
  ifZero w (bitField w 24 8 == 0) (f (selField w) (valField w))

/-- Format B (R74): `W[24]` and `W[11:8]` must be 0, and so must WIDTH and VAL for the commands that do not use them. -/
def formatB (w : Word) (usesWidth usesVal : Bool) (f : Sel → Nat → Nat → Nat → Byte → Instr) : Except DecodeError Instr :=
  ifZero w
    (bitField w 24 24 == 0 && bitField w 11 8 == 0 && (usesWidth || bitField w 15 12 == 0) &&
      (usesVal || bitField w 7 0 == 0))
    (f (selField w) (bitField w 23 19) (bitField w 18 16) (bitField w 15 12) (valField w))

/-- Format D (R75) has no reserved bit. -/
def formatD (w : Word) : Instr := .decode (strictField w) (bitField w 24 16) (bitField w 15 0)

/-- The decoder: OP alone selects the format (R70, R76). -/
def decode (w : Word) : Except DecodeError Instr :=
  match opField w with
  | 0x01 => formatN w .resetrec
  | 0x02 => formatB w false false fun s y b _ _ => .getbit s y b
  | 0x03 => formatB w false true fun s y b _ v => .setbit s y b v
  | 0x04 => formatB w true false fun s y a n _ => .getbits s y a n
  | 0x05 => formatB w true true fun s y a n v => .setbits s y a n v
  | 0x08 => formatR w .csum
  | 0x09 => formatR w .stamp
  | 0x0A => formatR w .isvalid
  | 0x0C => formatV w .encode
  | 0x0D => .ok (formatD w)
  | 0x10 => formatV w .setpower
  | 0x11 => formatR w .getpower
  | 0x12 => formatV w .setmode
  | 0x13 => formatR w .getmode
  | 0x14 => formatV w .settemp
  | 0x15 => formatR w .gettemp
  | 0x16 => formatV w .setfan
  | 0x17 => formatR w .getfan
  | 0x18 => formatV w .setswing
  | 0x19 => formatR w .getswing
  | 0x1A => formatV w .setturbo
  | 0x1B => formatR w .getturbo
  | 0x1C => formatV w .setlight
  | 0x1D => formatR w .getlight
  | 0x1E => formatV w .setsleep
  | 0x1F => formatR w .getsleep
  | op => .error (.reservedOpcode op)

/-! ### The encoder -/

/-- The opcode number of a command (R76). -/
def Instr.opcode : Instr → Nat
  | .resetrec => 0x01
  | .getbit .. => 0x02
  | .setbit .. => 0x03
  | .getbits .. => 0x04
  | .setbits .. => 0x05
  | .csum _ => 0x08
  | .stamp _ => 0x09
  | .isvalid _ => 0x0A
  | .encode .. => 0x0C
  | .decode .. => 0x0D
  | .setpower .. => 0x10
  | .getpower _ => 0x11
  | .setmode .. => 0x12
  | .getmode _ => 0x13
  | .settemp .. => 0x14
  | .gettemp _ => 0x15
  | .setfan .. => 0x16
  | .getfan _ => 0x17
  | .setswing .. => 0x18
  | .getswing _ => 0x19
  | .setturbo .. => 0x1A
  | .getturbo _ => 0x1B
  | .setlight .. => 0x1C
  | .getlight _ => 0x1D
  | .setsleep .. => 0x1E
  | .getsleep _ => 0x1F

/-- The SEL bit (R72). -/
def Sel.toBit : Sel → Nat
  | .record => 0
  | .cand => 1

/-- The bits below OP of formats R and V: SEL at 25, VAL at 7:0 (R72, R73). -/
def packV (s : Sel) (v : Byte) : Nat := s.toBit * 2 ^ 25 + v.toNat

/-- The bits below OP of format B (R74). -/
def packB (s : Sel) (byte bit width : Nat) (v : Byte) : Nat :=
  s.toBit * 2 ^ 25 + byte * 2 ^ 19 + bit * 2 ^ 16 + width * 2 ^ 12 + v.toNat

/-- The bits below OP of format D (R75). -/
def packD (strict : Bool) (nbits offset : Nat) : Nat := strict.toNat * 2 ^ 25 + nbits * 2 ^ 16 + offset

/-- The operand bits `W[25:0]` of a command. -/
def Instr.operands : Instr → Nat
  | .resetrec => 0
  | .getbit s y b => packB s y b 0 0
  | .setbit s y b v => packB s y b 0 v
  | .getbits s y a n => packB s y a n 0
  | .setbits s y a n v => packB s y a n v
  | .csum s => packV s 0
  | .stamp s => packV s 0
  | .isvalid s => packV s 0
  | .encode s r => packV s r
  | .decode st n o => packD st n o
  | .setpower s v => packV s v
  | .getpower s => packV s 0
  | .setmode s v => packV s v
  | .getmode s => packV s 0
  | .settemp s v => packV s v
  | .gettemp s => packV s 0
  | .setfan s v => packV s v
  | .getfan s => packV s 0
  | .setswing s v => packV s v
  | .getswing s => packV s 0
  | .setturbo s v => packV s v
  | .getturbo s => packV s 0
  | .setlight s v => packV s v
  | .getlight s => packV s 0
  | .setsleep s v => packV s v
  | .getsleep s => packV s 0

/-- The command word of an instruction: OP at 31:26 over its operand bits. It stands for the instruction when the
instruction is well formed. -/
def encode (i : Instr) : Word := BitVec.ofNat 32 (i.opcode * 2 ^ 26 + i.operands)

/-! ### The opcode map -/

/-- One row of R76: the words with `W & mask = bits` are the row's. -/
structure OpcodeRow where
  mnemonic : String
  bits : Word
  mask : Word
  deriving DecidableEq, Repr

/-- The opcode map of R76, its columns match and mask copied from there. -/
def opcodeTable : List OpcodeRow :=
  [⟨"resetrec", 0x04000000, 0xFFFFFFFF⟩, ⟨"getbit", 0x08000000, 0xFD00FFFF⟩, ⟨"setbit", 0x0C000000, 0xFD00FF00⟩,
   ⟨"getbits", 0x10000000, 0xFD000FFF⟩, ⟨"setbits", 0x14000000, 0xFD000F00⟩, ⟨"csum", 0x20000000, 0xFDFFFFFF⟩,
   ⟨"stamp", 0x24000000, 0xFDFFFFFF⟩, ⟨"isvalid", 0x28000000, 0xFDFFFFFF⟩, ⟨"encode", 0x30000000, 0xFDFFFF00⟩,
   ⟨"decode", 0x34000000, 0xFC000000⟩] ++
  [⟨"setpower", 0x40000000, 0xFDFFFF00⟩, ⟨"getpower", 0x44000000, 0xFDFFFFFF⟩, ⟨"setmode", 0x48000000, 0xFDFFFF00⟩,
   ⟨"getmode", 0x4C000000, 0xFDFFFFFF⟩, ⟨"settemp", 0x50000000, 0xFDFFFF00⟩, ⟨"gettemp", 0x54000000, 0xFDFFFFFF⟩,
   ⟨"setfan", 0x58000000, 0xFDFFFF00⟩, ⟨"getfan", 0x5C000000, 0xFDFFFFFF⟩] ++
  [⟨"setswing", 0x60000000, 0xFDFFFF00⟩, ⟨"getswing", 0x64000000, 0xFDFFFFFF⟩, ⟨"setturbo", 0x68000000, 0xFDFFFF00⟩,
   ⟨"getturbo", 0x6C000000, 0xFDFFFFFF⟩, ⟨"setlight", 0x70000000, 0xFDFFFF00⟩, ⟨"getlight", 0x74000000, 0xFDFFFFFF⟩,
   ⟨"setsleep", 0x78000000, 0xFDFFFF00⟩, ⟨"getsleep", 0x7C000000, 0xFDFFFFFF⟩]

/-- A word selects a row (R76). -/
def OpcodeRow.selects (r : OpcodeRow) (w : Word) : Bool := w &&& r.mask == r.bits

/-- The table's name of a command. -/
def Instr.mnemonic : Instr → String
  | .resetrec => "resetrec"
  | .getbit .. => "getbit"
  | .setbit .. => "setbit"
  | .getbits .. => "getbits"
  | .setbits .. => "setbits"
  | .csum _ => "csum"
  | .stamp _ => "stamp"
  | .isvalid _ => "isvalid"
  | .encode .. => "encode"
  | .decode .. => "decode"
  | .setpower .. => "setpower"
  | .getpower _ => "getpower"
  | .setmode .. => "setmode"
  | .getmode _ => "getmode"
  | .settemp .. => "settemp"
  | .gettemp _ => "gettemp"
  | .setfan .. => "setfan"
  | .getfan _ => "getfan"
  | .setswing .. => "setswing"
  | .getswing _ => "getswing"
  | .setturbo .. => "setturbo"
  | .getturbo _ => "getturbo"
  | .setlight .. => "setlight"
  | .getlight _ => "getlight"
  | .setsleep .. => "setsleep"
  | .getsleep _ => "getsleep"

/-! ### The host's numbering of a word -/

/-- The command word whose low `nbits` bits are `w` and whose other bits are 0. A command is one 32-bit word written to CMD
as a whole (R31), so no byte order enters. -/
def tableWord (nbits w : Nat) : Word := BitVec.ofNat 32 (w % 2 ^ nbits)

/-- What the decoder reads from an opcode-table word. -/
def decodeTableWord (nbits w : Nat) : Option Instr := (decode (tableWord nbits w)).toOption

end Sys2Proof
end

