-- ==== Sys2Proof/Config.lean ====
section
/-! DEFINITION. What is fixed for the block (R7, R8), the named parameters the spec leaves open (R9), and the model's two
constants with no body: the parameter values of the block the run starts from (log 1) and the contents of raw tick entries
that nothing has written since reset (log 4). -/

namespace Sys2Proof.Config

/-- `REC_LEN`: a record is exactly 18 bytes (R7). -/
abbrev recLen : Nat := 18

/-- `FRAME_BITS = 8 * REC_LEN` (R7). -/
abbrev frameBits : Nat := 144

/-- `CARRIER_HZ`, a protocol constant, not configurable per call (R8). -/
abbrev carrierHz : Nat := 38000

/-- The protocol constants the source names without a value (R9). Durations are natural numbers of microseconds. They are
fixed for the life of a block (R203). A value carries the one bound R10 requires: TICK_US is positive. -/
structure Params where
  /-- HDR_MARK_US: header mark duration. -/
  hdrMarkUs : Nat
  /-- HDR_SPACE_US: header space duration. -/
  hdrSpaceUs : Nat
  /-- BIT_MARK_US: mark before every data bit. -/
  bitMarkUs : Nat
  /-- ONE_SPACE_US: space after the mark of a 1 bit. -/
  oneSpaceUs : Nat
  /-- ZERO_SPACE_US: space after the mark of a 0 bit. -/
  zeroSpaceUs : Nat
  /-- TRAIL_MARK_US: trailing mark after the last bit. -/
  trailMarkUs : Nat
  /-- GAP_US: trailing gap (space) after the trailing mark. -/
  gapUs : Nat
  /-- MIN_REPEAT: minimum frame count. -/
  minRepeat : Nat
  /-- TICK_US: microseconds per raw tick, a positive natural (R9). -/
  tickUs : Nat
  /-- HDR_TOL_US: header tolerance window. -/
  hdrTolUs : Nat
  /-- BIT_TOL_US: data-bit space tolerance window. -/
  bitTolUs : Nat
  /-- RAW_CAP: capacity of the raw tick buffer, entries. -/
  rawCap : Nat
  /-- RAW_W: width of one raw tick entry, bits. -/
  rawW : Nat
  /-- `TICK_US >= 1` (R10). -/
  tickUsPos : 1 ≤ tickUs := by decide
  deriving DecidableEq, Repr

/-- The values of the parameters of the block that `State.reset` starts, by their row in R9's table, row 0 first (log 1): nothing
is known of them. -/
opaque paramValue : Nat → Nat

/-- The parameter set of that block. TICK_US is one more than an unknown natural, so it is any positive natural (R9, R10). -/
def params : Params where
  hdrMarkUs := paramValue 0
  hdrSpaceUs := paramValue 1
  bitMarkUs := paramValue 2
  oneSpaceUs := paramValue 3
  zeroSpaceUs := paramValue 4
  trailMarkUs := paramValue 5
  gapUs := paramValue 6
  minRepeat := paramValue 7
  tickUs := paramValue 8 + 1
  hdrTolUs := paramValue 9
  bitTolUs := paramValue 10
  rawCap := paramValue 11
  rawW := paramValue 12
  tickUsPos := Nat.le_add_left 1 _

/-- FREE VALUE (log 4): after the `n`-th reset event, raw tick entry `i` holds `rawUnwritten n i mod 2^RAW_W` until the host
writes it (10_state.md R32, 93_implementation_defined.md: "any value", a draw per entry). -/
opaque rawUnwritten : Nat → Nat → Nat

end Sys2Proof.Config
end

