-- ==== Sys2Proof/Machine/Record.lean ====
section
/-! DEFINITION. What a record is and the pure functions the rules apply to it: the field layout (10_state.md R34), the bit
helpers (41_bitfield.md R130), the checksum (00_scope.md R13, 42_checksum.md R140), the enumerations (R41) and the reset
pattern (R36, R37). -/

namespace Sys2Proof.Machine

open Sys2Proof

/-- An 18-byte record, bytes 0 to 17 (R7, R22). -/
abbrev Record := Vector Byte Config.recLen

/-- The index of a byte of a record, 0 to 17. -/
abbrev ByteIx := Fin Config.recLen

/-! ### Bit helpers (R130) -/

/-- `FieldMask(w) = (1 << w) - 1`, 8 bits: the w low ones. -/
def fieldMask (w : Nat) : Byte := (1#8 <<< w) - 1#8

/-- `GetBitsFn(x, a, w) = (x >> a) & FieldMask(w)`. -/
def getBitsFn (x : Byte) (a w : Nat) : Byte := (x >>> a) &&& fieldMask w

/-- `SetBitsFn(x, a, w, v) = (x & ~(FieldMask(w) << a)) | ((v & FieldMask(w)) << a)`. -/
def setBitsFn (x : Byte) (a w : Nat) (v : Byte) : Byte :=
  (x &&& ~~~(fieldMask w <<< a)) ||| ((v &&& fieldMask w) <<< a)

/-! ### Checksum (R13, R140) -/

/-- `Sum8(buf, n)`: the sum of every byte but the last, mod 256; 0 for n at most 1. -/
def sum8 (buf : List Byte) : Byte := buf.dropLast.sum

/-- `IsValidFn(buf, n) = (n >= 3) and (buf[n-1] == Sum8(buf, n))`. -/
def isValidFn (buf : List Byte) : Bool := decide (3 ≤ buf.length) && buf.getLast? == some (sum8 buf)

/-! ### Field layout (R34) -/

/-- The named fields of a record. -/
inductive Field where
  | power
  | mode
  | temperature
  | fan
  | swing
  | turbo
  | light
  | sleep
  | checksum
  deriving DecidableEq, Repr

/-- Where a field stands: its byte, the lowest of its bits, and its width. -/
structure FieldPos where
  byte : ByteIx
  start : Nat
  width : Nat
  deriving DecidableEq, Repr

/-- The table of R34 (mode at bits 2:0: 90_conflicts.md C2). -/
def Field.pos : Field → FieldPos
  | .power => ⟨5, 5, 1⟩
  | .mode => ⟨6, 0, 3⟩
  | .temperature => ⟨7, 0, 8⟩
  | .fan => ⟨9, 0, 4⟩
  | .swing => ⟨10, 0, 4⟩
  | .turbo => ⟨11, 5, 1⟩
  | .light => ⟨12, 5, 1⟩
  | .sleep => ⟨13, 5, 1⟩
  | .checksum => ⟨17, 0, 8⟩

/-! ### Enumerations (R41) -/

/-- The legal codes of mode: auto, cool, heat, dry, fan. -/
def modeCodes : List Byte := [4, 1, 2, 3, 5]

/-- The fallback of mode: auto. -/
def modeFallback : Byte := 4

/-- The legal codes of fan speed: auto, high, medium, low, top. -/
def fanCodes : List Byte := [0, 1, 2, 3, 4]

/-- The fallback of fan speed: auto. -/
def fanFallback : Byte := 0

/-- The legal codes of swing: auto, highest, high, low, lowest. -/
def swingCodes : List Byte := [0, 1, 2, 3, 4]

/-- The fallback of swing: auto. -/
def swingFallback : Byte := 0

/-! ### Reset pattern (R36, R37) -/

/-- The pattern P, the source's last byte 0x1A included (R36). -/
def resetPattern : Record :=
  #v[0x23, 0xCB, 0x26, 0x01, 0x00, 0x20, 0x08, 0x06, 0x30, 0x45, 0x67, 0x00, 0x00, 0x00, 0x00, 0x00, 0x00, 0x1A]

/-- `P[0..16] ++ [Sum8(P, 18)]`: the pattern with its checksum stamped (R37, 90_conflicts.md C1). -/
def resetRecord : Record := resetPattern.set 17 (sum8 resetPattern.toList)

end Sys2Proof.Machine
end

