-- ==== Sys2Proof/Machine/State.lean ====
section
/-! DEFINITION. The state of the block (10_state.md), the host's moves (20_memory.md R66), the reasons a step can stop, and
the state after reset (70_reset_and_hazards.md R200). All of it is plain data. -/

namespace Sys2Proof.Machine

open Sys2Proof

/-- The completion codes of STATUS.CODE, values 0 to 7 in this order; 8 to 15 are never produced (R27). -/
inductive Code where
  /-- 0 OK: the command completed. -/
  | ok
  /-- 1 E_ILLEGAL: reserved opcode or nonzero reserved field. -/
  | illegal
  /-- 2 E_RANGE: operand out of range. -/
  | range
  /-- 3 E_NOCAND: SEL = 1 while CAND_VALID = 0. -/
  | noCand
  /-- 4 E_LENGTH: NBITS is not 144. -/
  | length
  /-- 5 E_SHORT: insufficient raw samples. -/
  | short
  /-- 6 E_HEADER: header mismatch. -/
  | header
  /-- 7 E_NOMATCH: no bit-pattern match. -/
  | noMatch
  deriving DecidableEq, Repr

/-- One (mark_us, space_us) pair of a frame (R57). -/
structure Pulse where
  markUs : Nat
  spaceUs : Nat
  deriving DecidableEq, Repr

/-- One transmission, an entry of TXLOG (R57): carrier, frame count, frame. -/
structure Transmission where
  carrierHz : Nat
  repeats : Nat
  frame : List Pulse
  deriving DecidableEq, Repr

/-- The raw tick entries written since reset, as (index, value) pairs, indices strictly rising; an unlisted entry has not been
written and reads as a free value (R32; log 4, log 5). -/
abbrev RawMem := List (Nat × Nat)

/-- One move of the host at the block's ports (R66). Each is performed whole by one step (R59, R67). -/
inductive HostMove where
  /-- A host write of the word w to CMD: issue the command w (R31). -/
  | command (w : Word)
  /-- RAW[i] <- v (R67). -/
  | writeRaw (i v : Nat)
  /-- RAW_LEN <- n (R67). -/
  | writeRawLen (n : BitVec 16)
  /-- Read RES, STATUS, RAW or RAW_LEN, or take a transmission from TXLOG: the block does nothing (R66). -/
  | observe
  /-- Assert the reset input (R200). -/
  | reset
  deriving DecidableEq, Repr

/-- Host moves to which the spec gives no meaning (R66: "Anything the host does outside this table has no meaning in this
spec"). Only Machine/HostPort.lean raises them, never an instruction. Safe: the run stops (log 6). -/
inductive Fault where
  /-- Raised by a host write of RAW[i] with i at or above RAW_CAP: RAW has entries 0 to RAW_CAP - 1 (R32). Safe. -/
  | rawIndexBeyondCap
  /-- Raised by a host write of a RAW entry that does not fit RAW_W bits (R32). Safe. -/
  | rawEntryTooWide
  /-- Raised by a host write of RAW_LEN above RAW_CAP, "not a state the block can be in" (R67). Safe. -/
  | rawLenAboveCap
  deriving DecidableEq, Repr

/-- Why an instruction has no meaning in the model. -/
inductive Refusal where
  /-- Raised by an arm of exec whose instruction has no meaning yet; no arm is such. Safe. -/
  | notModelled (mnemonic : String)
  deriving DecidableEq, Repr

/-- The state: what the spec gives the block, its fixed parameters, and two fields of the model's own. -/
structure State where
  /-- The parameters of the block, which no step changes (R9, R203; log 1). -/
  params : Config.Params
  /-- REC (R22). -/
  record : Record
  /-- CAND (R23). -/
  cand : Record
  /-- CAND_VALID, read as STATUS.CANDV (R24, R29). -/
  candValid : Bool
  /-- RES (R25). -/
  res : BitVec 16
  /-- STATUS.CODE (R27). -/
  code : Code
  /-- STATUS.UNKNOWN (R28). -/
  unknown : Bool
  /-- STATUS.ILL, sticky (R30). -/
  ill : Bool
  /-- RAW (R32). -/
  raw : RawMem
  /-- RAW_LEN (R32). -/
  rawLen : BitVec 16
  /-- TXLOG, oldest first (R33). -/
  txlog : List Transmission
  /-- The model's own: the moves the host will make, next first (log 2). -/
  pending : List HostMove
  /-- The model's own: the number of reset events so far, which indexes the free values of RAW (log 4). -/
  resets : Nat
  deriving DecidableEq, Repr

/-- The state after reset (R200). CAND's eighteen zero bytes (log 3), the empty list of moves (log 2) and the zero count
(log 4) are DESIGN CHOICES; the parameters are those of the block, of which nothing is known (log 1). -/
def State.reset : State where
  params := Config.params
  record := resetRecord
  cand := Vector.replicate 18 0
  candValid := false
  res := 0
  code := .ok
  unknown := false
  ill := false
  raw := []
  rawLen := 0
  txlog := []
  pending := []
  resets := 0

end Sys2Proof.Machine
end

