-- ==== Sys2Proof/Machine/Flags.lean ====
section
/-! DEFINITION. The STATUS register (10_state.md R26 to R30): its codes, the byte the host reads, and how a command that
completes writes it. -/

namespace Sys2Proof.Machine

open Sys2Proof

/-- The value of STATUS.CODE (R27). -/
def Code.toBits : Code → BitVec 4
  | .ok => 0
  | .illegal => 1
  | .range => 2
  | .noCand => 3
  | .length => 4
  | .short => 5
  | .header => 6
  | .noMatch => 7

/-- The codes whose failures set the sticky STATUS.ILL: E_ILLEGAL, E_RANGE, E_NOCAND (R30). -/
def Code.setsIll : Code → Bool
  | .ok => false
  | .illegal => true
  | .range => true
  | .noCand => true
  | .length => false
  | .short => false
  | .header => false
  | .noMatch => false

/-- The STATUS byte the host reads: ILL, 0, CANDV, UNKNOWN, CODE from bit 7 down (R26, R29). -/
def State.statusByte (s : State) : Byte :=
  BitVec.ofBool s.ill ++ 0#1 ++ BitVec.ofBool s.candValid ++ BitVec.ofBool s.unknown ++ s.code.toBits

/-- `STATUS.UNKNOWN <- u; finish()` (R12, R180). -/
def State.complete (unknown : Bool) (s : State) : State := { s with code := .ok, unknown := unknown }

end Sys2Proof.Machine
end

