-- ==== Sys2Proof/Machine/Ops.lean ====
section
/-! DEFINITION. The named operations over the block's spaces (20_memory.md R50): the record space, RES, the raw tick space
and the output port; and failing, the block's whole exception mechanism (60_exceptions.md R180 to R184). There is no trap entry
and no return (R187, R188): a failed command is over and the next one follows. -/

namespace Sys2Proof.Machine

open Sys2Proof

/-! ### Record space (R12, R50) -/

/-- `Rec(s)`: the record SEL selects. -/
def State.sel (s : State) : Sel → Record
  | .record => s.record
  | .cand => s.cand

/-- The state with the record SEL selects replaced. -/
def State.withSel (q : Sel) (r : Record) (s : State) : State :=
  match q with
  | .record => { s with record := r }
  | .cand => { s with cand := r }

/-- `RecRead(s, i)`. -/
def State.recRead (s : State) (q : Sel) (i : ByteIx) : Byte := (s.sel q)[i]

/-- `RecWrite(s, i, v)`. -/
def State.recWrite (q : Sel) (i : ByteIx) (v : Byte) (s : State) : State := s.withSel q ((s.sel q).set i v)

/-- `RecWrite(s, 17, Sum8(Rec(s), 18))` (R101, R142). -/
def State.stampRec (q : Sel) (s : State) : State := s.recWrite q 17 (sum8 (s.sel q).toList)

/-- The value of a bit range of one byte of a record. -/
def State.bitsRead (s : State) (q : Sel) (i : ByteIx) (a w : Nat) : Byte := getBitsFn (s.recRead q i) a w

/-- `RecWrite(s, i, SetBitsFn(RecRead(s, i), a, w, v))`. -/
def State.bitsWrite (q : Sel) (i : ByteIx) (a w : Nat) (v : Byte) (s : State) : State :=
  s.recWrite q i (setBitsFn (s.recRead q i) a w v)

/-! ### RES (R25) -/

/-- `RES <- v`. -/
def State.withRes (v : BitVec 16) (s : State) : State := { s with res := v }

/-! ### Raw tick space (R32, R55) -/

/-- The value listed at an index. -/
def RawMem.find (m : RawMem) (i : Nat) : Option Nat :=
  match m with
  | [] => none
  | (j, v) :: rest => if i = j then some v else RawMem.find rest i

/-- The raw memory with v written at index i, indices kept strictly rising. -/
def RawMem.insert (m : RawMem) (i v : Nat) : RawMem :=
  match m with
  | [] => [(i, v)]
  | (j, u) :: rest =>
    if i < j then (i, v) :: (j, u) :: rest
    else if i = j then (i, v) :: rest
    else (j, u) :: RawMem.insert rest i v

/-- Every listed index is above `lo`. -/
def RawMem.above (lo : Nat) (m : RawMem) : Bool := m.all fun e => decide (lo < e.1)

/-- The canonical form: indices strictly rising (log 5). -/
def RawMem.wf (m : RawMem) : Bool :=
  match m with
  | [] => true
  | (i, _) :: rest => RawMem.above i rest && RawMem.wf rest

/-- Every listed entry has an index below RAW_CAP and a value of RAW_W bits (R32). -/
def RawMem.fits (p : Config.Params) (m : RawMem) : Bool :=
  m.all fun e => decide (e.1 < p.rawCap) && decide (e.2 < 2 ^ p.rawW)

/-- `RawRead(i)`: the natural number RAW[i] (R55); a free value of RAW_W bits where nothing has written the entry since reset
(log 4). A read has no side effect. -/
def State.rawRead (s : State) (i : Nat) : Nat :=
  match RawMem.find s.raw i with
  | some v => v
  | none => Config.rawUnwritten s.resets i % 2 ^ s.params.rawW

/-! ### Output port (R33, R57) -/

/-- `Emit(tx)`: append one transmission to TXLOG. -/
def State.emit (tx : Transmission) (s : State) : State := { s with txlog := s.txlog ++ [tx] }

/-! ### Failing (R12, R168, R182) -/

/-- `raise Fail(c)`: CODE <- c, UNKNOWN <- 0, ILL set for E_ILLEGAL, E_RANGE and E_NOCAND, nothing else (R12, R182). -/
def State.raiseFail (c : Code) (s : State) : State :=
  { s with code := c, unknown := false, ill := s.ill || c.setsIll }

/-- `fail(c)` of DECODE: CAND_VALID <- 0, UNKNOWN <- 0, CODE <- c, nothing else (R168). -/
def State.decodeFail (c : Code) (s : State) : State :=
  { s with candValid := false, unknown := false, code := c }

/-- DECODE's acceptance: all of CAND at once, and CAND_VALID <- 1 (R167). -/
def State.acceptCand (r : Record) (s : State) : State := { s with cand := r, candValid := true }

end Sys2Proof.Machine
end

