-- ==== Sys2Proof/Machine/Operands.lean ====
section
/-! DEFINITION. The operand forms of the formats and the checks made on them in the order of 60_exceptions.md R185: range
(30_encoding.md R79), then candidate gating (R183). Legality (R77) is the decoder's. -/

namespace Sys2Proof.Machine

open Sys2Proof

/-- REC is always readable, CAND only while CAND_VALID = 1 (R183). -/
def State.readable (s : State) : Sel → Bool
  | .record => true
  | .cand => s.candValid

/-- Candidate gating: run the command, or fail with E_NOCAND before anything is read or written (R183). -/
def gated (q : Sel) (body : State → State) (s : State) : State :=
  if s.readable q then body s else s.raiseFail .noCand

/-- BYTE as the index of a byte: BYTE > 17 fails with E_RANGE (R79). -/
def inByte (byte : Nat) (body : ByteIx → State → State) (s : State) : State :=
  if h : byte < Config.recLen then body ⟨byte, h⟩ s else s.raiseFail .range

/-- The bit range of GETBITS and SETBITS: WIDTH 1 to 8 and BIT + WIDTH at most 8 (R79). -/
def fieldInByte (start width : Nat) : Bool := decide (1 ≤ width) && decide (width ≤ 8) && decide (start + width ≤ 8)

/-- The range check of GETBITS and SETBITS (R79, R133, R134). -/
def inField (byte start width : Nat) (body : ByteIx → State → State) (s : State) : State :=
  if fieldInByte start width then inByte byte body s else s.raiseFail .range

/-- VAL as a boolean: any nonzero VAL is 1 (R102, R132). -/
def boolVal (v : Byte) : Byte := if v = 0 then 0 else 1

/-- SETTEMP's stored value: `min(max(t, 16), 31) - 16` (R106). -/
def clampTemp (t : Byte) : Byte := BitVec.ofNat 8 (min (max t.toNat 16) 31 - 16)

/-- ENCODE's frame count: `max(rep, MIN_REPEAT)` (R152). -/
def frameCount (p : Config.Params) (rep : Byte) : Nat := max rep.toNat p.minRepeat

end Sys2Proof.Machine
end

