-- ==== Sys2Proof/Machine/BitField.lean ====
section
/-! DEFINITION. The bit-field access commands (41_bitfield.md): GETBIT, SETBIT, GETBITS, SETBITS. None of them stamps. -/

namespace Sys2Proof.Machine

open Sys2Proof

/-- Read a bit range into RES, UNKNOWN <- 0, finish. -/
def readBits (q : Sel) (a w : Nat) (i : ByteIx) : State → State :=
  gated q fun s => (s.withRes ((s.bitsRead q i a w).setWidth 16)).complete false

/-- Write a bit range, UNKNOWN <- 0, finish. -/
def writeBits (q : Sel) (a w : Nat) (v : Byte) (i : ByteIx) : State → State :=
  gated q fun s => (s.bitsWrite q i a w v).complete false

/-- GETBIT (R131). -/
def execGetbit (q : Sel) (byte bit : Nat) (s : State) : Host.Outcome State Fault Refusal :=
  .next (inByte byte (readBits q bit 1) s)

/-- SETBIT: any nonzero VAL sets the bit; no stamp (R132). -/
def execSetbit (q : Sel) (byte bit : Nat) (v : Byte) (s : State) : Host.Outcome State Fault Refusal :=
  .next (inByte byte (writeBits q bit 1 (boolVal v)) s)

/-- GETBITS (R133). -/
def execGetbits (q : Sel) (byte start width : Nat) (s : State) : Host.Outcome State Fault Refusal :=
  .next (inField byte start width (readBits q start width) s)

/-- SETBITS: VAL truncated to its low WIDTH bits; no stamp (R134). -/
def execSetbits (q : Sel) (byte start width : Nat) (v : Byte) (s : State) : Host.Outcome State Fault Refusal :=
  .next (inField byte start width (writeBits q start width v) s)

end Sys2Proof.Machine
end

