-- ==== Sys2Proof/Machine/Checksum.lean ====
section
/-! DEFINITION. The checksum commands (42_checksum.md): CSUM, STAMP, ISVALID. -/

namespace Sys2Proof.Machine

open Sys2Proof

/-- CSUM: `RES <- zext_16(Sum8(Rec(s), 18))` (R141). -/
def execCsum (q : Sel) (s : State) : Host.Outcome State Fault Refusal :=
  .next (gated q (fun s => (s.withRes ((sum8 (s.sel q).toList).setWidth 16)).complete false) s)

/-- STAMP: the checksum into byte 17 (R142). -/
def execStamp (q : Sel) (s : State) : Host.Outcome State Fault Refusal :=
  .next (gated q (fun s => (s.stampRec q).complete false) s)

/-- ISVALID: `RES <- IsValidFn(Rec(s), 18) ? 1 : 0`; an invalid checksum is a result, not an error (R143, R195). -/
def execIsvalid (q : Sel) (s : State) : Host.Outcome State Fault Refusal :=
  .next (gated q (fun s => (s.withRes (if isValidFn (s.sel q).toList then 1 else 0)).complete false) s)

end Sys2Proof.Machine
end

