-- ==== Sys2Proof/Machine/Decoder.lean ====
section
/-! DEFINITION. The pulse decoder (44_decoder.md): tolerance matching (00_scope.md R14), the walk over the raw buffer, byte
assembly, DECODE. -/

namespace Sys2Proof.Machine

open Sys2Proof

/-- `abs(a - b)` on naturals, exact (R12). -/
def absDiff (a b : Nat) : Nat := (a - b) + (b - a)

/-- `Match(ticks, ref_us, tol_us) = abs(ticks * TICK_US - ref_us) <= tol_us`, inclusive (R14). -/
def ticksMatch (p : Config.Params) (ticks refUs tolUs : Nat) : Bool :=
  decide (absDiff (ticks * p.tickUs) refUs ≤ tolUs)

/-- The bit a space entry stands for: the one window is tested first (R165). -/
def classify (p : Config.Params) (sp : Nat) : Option Bool :=
  if ticksMatch p sp p.oneSpaceUs p.bitTolUs then some true
  else if ticksMatch p sp p.zeroSpaceUs p.bitTolUs then some false
  else none

/-- The data bits `k, k + 1, …` of the frame at offset o, `n` of them: each consumes a (mark, space) pair whose mark must be
present and is not compared (R160, R162, R164). -/
def decodeBits (s : State) (o : Nat) : Nat → Nat → Except Code (List Bool)
  | 0, _ => .ok []
  | n + 1, k =>
    if s.rawLen.toNat ≤ o + 2 + 2 * k + 1 then .error .short
    else
      match classify s.params (s.rawRead (o + 2 + 2 * k + 1)) with
      | none => .error .noMatch
      | some b =>
        match decodeBits s o n (k + 1) with
        | .ok bs => .ok (b :: bs)
        | .error c => .error c

/-- `((byte << 1) | bit) & 0xFF` over the bits of one byte, the first bit ending as bit 7 (R166). -/
def packByte (bits : List Bool) : Byte := bits.foldl (fun x b => (x <<< 1) ||| (BitVec.ofBool b).setWidth 8) 0

/-- Byte assembly: the first 8 bits form byte 0, and so on to byte 17 (R166). -/
def recordOfBits (bits : List Bool) : Record := Vector.ofFn fun i => packByte ((bits.drop (8 * i.val)).take 8)

/-- DECODE's checks in the order of R160: length, then header mark, header space and data, each entry read only when its index
is below RAW_LEN (R161 to R165). -/
def decodeCapture (s : State) (nbits o : Nat) : Except Code Record :=
  if nbits ≠ Config.frameBits then .error .length
  else if s.rawLen.toNat ≤ o then .error .short
  else if !ticksMatch s.params (s.rawRead o) s.params.hdrMarkUs s.params.hdrTolUs then .error .header
  else if s.rawLen.toNat ≤ o + 1 then .error .short
  else if !ticksMatch s.params (s.rawRead (o + 1)) s.params.hdrSpaceUs s.params.hdrTolUs then .error .header
  else
    match decodeBits s o Config.frameBits 0 with
    | .ok bits => .ok (recordOfBits bits)
    | .error c => .error c

/-- DECODE: STRICT has no effect (R169), the checksum is not checked (R170). -/
def execDecode (_strict : Bool) (nbits offset : Nat) (s : State) : Host.Outcome State Fault Refusal :=
  match decodeCapture s nbits offset with
  | .ok r => .next ((s.acceptCand r).complete false)
  | .error c => .next (s.decodeFail c)

end Sys2Proof.Machine
end

