-- ==== Sys2Proof/Machine/Encoder.lean ====
section
/-! DEFINITION. The pulse encoder (43_encoder.md): the frame of a record, ENCODE, and the train a transmission stands for
(20_memory.md R58). -/

namespace Sys2Proof.Machine

open Sys2Proof

/-- The bits of a byte in wire order, most significant first (R52). -/
def byteBits (b : Byte) : List Bool := [7, 6, 5, 4, 3, 2, 1, 0].map b.getLsbD

/-- The 144 bits of a record in wire order: byte 0 first, byte 17 last (R52). -/
def wireBits (r : Record) : List Bool := r.toList.flatMap byteBits

/-- The pair of one data bit: a bit mark, then the one or the zero space (R150). -/
def bitPulse (p : Config.Params) (b : Bool) : Pulse := ⟨p.bitMarkUs, if b then p.oneSpaceUs else p.zeroSpaceUs⟩

/-- `Frame(r)`: header, 144 bit pairs, trailer (R150). -/
def frameOf (p : Config.Params) (r : Record) : List Pulse :=
  [⟨p.hdrMarkUs, p.hdrSpaceUs⟩] ++ (wireBits r).map (bitPulse p) ++ [⟨p.trailMarkUs, p.gapUs⟩]

/-- The transmission ENCODE emits (R151). -/
def transmissionOf (p : Config.Params) (r : Record) (rep : Byte) : Transmission :=
  ⟨Config.carrierHz, frameCount p rep, frameOf p r⟩

/-- ENCODE: emit the record as it stands; nothing of it is written (R151, R154). -/
def execEncode (q : Sel) (rep : Byte) (s : State) : Host.Outcome State Fault Refusal :=
  .next (gated q (fun s => (s.emit (transmissionOf s.params (s.sel q) rep)).complete false) s)

/-! ### Trains (R58, R155) -/

/-- The durations of a list of pairs: mark, space, mark, space. -/
def durations (ps : List Pulse) : List Nat := ps.flatMap fun p => [p.markUs, p.spaceUs]

/-- `Train(tx) = rep(tx.frame, tx.repeat)`, flattened (R58). -/
def Transmission.train (tx : Transmission) : List Nat := durations (List.replicate tx.repeats tx.frame).flatten

/-- What the Transmitter emits: the trains of TXLOG's entries in log order (R58). -/
def State.trains (s : State) : List Nat := s.txlog.flatMap Transmission.train

end Sys2Proof.Machine
end

