-- ==== Sys2Proof/Machine/Fields.lean ====
section
/-! DEFINITION. Record creation and the named field commands (40_fields.md). Every named setter stamps the record it wrote
(R101). -/

namespace Sys2Proof.Machine

open Sys2Proof

/-- A named setter: write the field, stamp, UNKNOWN <- 0, finish (R101). -/
def setNamed (f : Field) (q : Sel) (v : Byte) : State → State :=
  gated q fun s => ((s.bitsWrite q f.pos.byte f.pos.start f.pos.width v).stampRec q).complete false

/-- The raw value of a named field. -/
def State.fieldRead (s : State) (q : Sel) (f : Field) : Byte := s.bitsRead q f.pos.byte f.pos.start f.pos.width

/-- A boolean getter: the field zero-extended into RES, UNKNOWN <- 0, finish. -/
def getFlag (f : Field) (q : Sel) : State → State :=
  gated q fun s => (s.withRes ((s.fieldRead q f).setWidth 16)).complete false

/-- What an enumerated getter makes of a raw value: the value itself if it is legal, else the fallback; and UNKNOWN (R41, R28). -/
def enumValue (legal : List Byte) (fallback raw : Byte) : Byte × Bool :=
  if raw ∈ legal then (raw, false) else (fallback, true)

/-- An enumerated getter (R105, R109, R111). -/
def getEnum (f : Field) (legal : List Byte) (fallback : Byte) (q : Sel) : State → State :=
  gated q fun s =>
    (s.withRes ((enumValue legal fallback (s.fieldRead q f)).1.setWidth 16)).complete
      (enumValue legal fallback (s.fieldRead q f)).2

/-- RESETREC: REC from the reset pattern, its checksum stamped (R100). -/
def execResetrec (s : State) : Host.Outcome State Fault Refusal :=
  .next ((s.withSel .record resetRecord).complete false)

/-- SETPOWER (R102). -/
def execSetpower (q : Sel) (v : Byte) (s : State) : Host.Outcome State Fault Refusal :=
  .next (setNamed .power q (boolVal v) s)

/-- GETPOWER (R103). -/
def execGetpower (q : Sel) (s : State) : Host.Outcome State Fault Refusal := .next (getFlag .power q s)

/-- SETMODE: VAL truncated to 3 bits, not checked against the legal set (R104). -/
def execSetmode (q : Sel) (v : Byte) (s : State) : Host.Outcome State Fault Refusal := .next (setNamed .mode q v s)

/-- GETMODE (R105). -/
def execGetmode (q : Sel) (s : State) : Host.Outcome State Fault Refusal :=
  .next (getEnum .mode modeCodes modeFallback q s)

/-- SETTEMP: clamped to 16..31, the whole byte written (R106). -/
def execSettemp (q : Sel) (t : Byte) (s : State) : Host.Outcome State Fault Refusal :=
  .next (setNamed .temperature q (clampTemp t) s)

/-- GETTEMP: `zext_16(RecRead(s, 7)) + 16`, not clamped (R107). -/
def execGettemp (q : Sel) (s : State) : Host.Outcome State Fault Refusal :=
  .next (gated q (fun s => (s.withRes ((s.fieldRead q .temperature).setWidth 16 + 16)).complete false) s)

/-- SETFAN: VAL truncated to 4 bits (R108). -/
def execSetfan (q : Sel) (v : Byte) (s : State) : Host.Outcome State Fault Refusal := .next (setNamed .fan q v s)

/-- GETFAN (R109). -/
def execGetfan (q : Sel) (s : State) : Host.Outcome State Fault Refusal :=
  .next (getEnum .fan fanCodes fanFallback q s)

/-- SETSWING: VAL truncated to 4 bits (R110). -/
def execSetswing (q : Sel) (v : Byte) (s : State) : Host.Outcome State Fault Refusal := .next (setNamed .swing q v s)

/-- GETSWING (R111). -/
def execGetswing (q : Sel) (s : State) : Host.Outcome State Fault Refusal :=
  .next (getEnum .swing swingCodes swingFallback q s)

/-- SETTURBO (R112). -/
def execSetturbo (q : Sel) (v : Byte) (s : State) : Host.Outcome State Fault Refusal :=
  .next (setNamed .turbo q (boolVal v) s)

/-- GETTURBO (R113). -/
def execGetturbo (q : Sel) (s : State) : Host.Outcome State Fault Refusal := .next (getFlag .turbo q s)

/-- SETLIGHT (R114). -/
def execSetlight (q : Sel) (v : Byte) (s : State) : Host.Outcome State Fault Refusal :=
  .next (setNamed .light q (boolVal v) s)

/-- GETLIGHT (R115). -/
def execGetlight (q : Sel) (s : State) : Host.Outcome State Fault Refusal := .next (getFlag .light q s)

/-- SETSLEEP (R116). -/
def execSetsleep (q : Sel) (v : Byte) (s : State) : Host.Outcome State Fault Refusal :=
  .next (setNamed .sleep q (boolVal v) s)

/-- GETSLEEP (R117). -/
def execGetsleep (q : Sel) (s : State) : Host.Outcome State Fault Refusal := .next (getFlag .sleep q s)

end Sys2Proof.Machine
end

