-- ==== Sys2Proof/Machine/Dispatch.lean ====
section
/-! DEFINITION. exec: one arm per instruction, each one call of its meaning. -/

namespace Sys2Proof.Machine

open Sys2Proof

def exec (i : Instr) (s : State) : Host.Outcome State Fault Refusal :=
  match i with
  | .resetrec => Sys2Proof.Machine.execResetrec s
  | .getbit q y b => Sys2Proof.Machine.execGetbit q y b s
  | .setbit q y b v => Sys2Proof.Machine.execSetbit q y b v s
  | .getbits q y a n => Sys2Proof.Machine.execGetbits q y a n s
  | .setbits q y a n v => Sys2Proof.Machine.execSetbits q y a n v s
  | .csum q => Sys2Proof.Machine.execCsum q s
  | .stamp q => Sys2Proof.Machine.execStamp q s
  | .isvalid q => Sys2Proof.Machine.execIsvalid q s
  | .encode q v => Sys2Proof.Machine.execEncode q v s
  | .decode st n o => Sys2Proof.Machine.execDecode st n o s
  | .setpower q v => Sys2Proof.Machine.execSetpower q v s
  | .getpower q => Sys2Proof.Machine.execGetpower q s
  | .setmode q v => Sys2Proof.Machine.execSetmode q v s
  | .getmode q => Sys2Proof.Machine.execGetmode q s
  | .settemp q v => Sys2Proof.Machine.execSettemp q v s
  | .gettemp q => Sys2Proof.Machine.execGettemp q s
  | .setfan q v => Sys2Proof.Machine.execSetfan q v s
  | .getfan q => Sys2Proof.Machine.execGetfan q s
  | .setswing q v => Sys2Proof.Machine.execSetswing q v s
  | .getswing q => Sys2Proof.Machine.execGetswing q s
  | .setturbo q v => Sys2Proof.Machine.execSetturbo q v s
  | .getturbo q => Sys2Proof.Machine.execGetturbo q s
  | .setlight q v => Sys2Proof.Machine.execSetlight q v s
  | .getlight q => Sys2Proof.Machine.execGetlight q s
  | .setsleep q v => Sys2Proof.Machine.execSetsleep q v s
  | .getsleep q => Sys2Proof.Machine.execGetsleep q s

end Sys2Proof.Machine
end

