-- ==== Sys2Proof/Machine/HostPort.lean ====
section
/-! DEFINITION. What the block does at each host move of 20_memory.md R66. -/

namespace Sys2Proof.Machine

open Sys2Proof

/-- A host write of w to CMD: the block executes the command w; an illegal word ends with `raise Fail(E_ILLEGAL)` (R31, R77). -/
def issueCommand (w : Word) (s : State) : Host.Outcome State Fault Refusal :=
  match decode w with
  | .ok i => exec i s
  | .error _ => .next (s.raiseFail .illegal)

/-- `RAW[i] <- v` by the host (R66, R67). An index or a value that RAW does not have is outside R66 (log 6). -/
def hostWriteRaw (i v : Nat) (s : State) : Host.Outcome State Fault Refusal :=
  if s.params.rawCap ≤ i then .fault .rawIndexBeyondCap
  else if 2 ^ s.params.rawW ≤ v then .fault .rawEntryTooWide
  else .next { s with raw := RawMem.insert s.raw i v }

/-- `RAW_LEN <- n` by the host, who owes `RAW_LEN <= RAW_CAP` (R67; log 6). -/
def hostWriteRawLen (n : BitVec 16) (s : State) : Host.Outcome State Fault Refusal :=
  if s.params.rawCap < n.toNat then .fault .rawLenAboveCap
  else .next { s with rawLen := n }

/-- The reset input: every state element at its reset value, all at once (R200). The parameters are fixed for the block's life
(R203); the host's coming moves are not the block's (log 2); the count of resets rises, so that RAW's entries are drawn
afresh (log 4). -/
def resetEvent (s : State) : State :=
  { State.reset with params := s.params, pending := s.pending, resets := s.resets + 1 }

/-- One host move. -/
def applyMove (m : HostMove) (s : State) : Host.Outcome State Fault Refusal :=
  match m with
  | .command w => issueCommand w s
  | .writeRaw i v => hostWriteRaw i v s
  | .writeRawLen n => hostWriteRawLen n s
  | .observe => .next s
  | .reset => .next (resetEvent s)

/-- With no move to perform the block holds its state unchanged (R194; log 7). -/
def idle (s : State) : Host.Outcome State Fault Refusal := .next s

/-- Make `w` the next word the host writes to CMD, before its other coming moves. -/
def State.issueNext (s : State) (w : Word) : State := { s with pending := .command w :: s.pending }

end Sys2Proof.Machine
end

