-- ==== Sys2Proof/Machine/Step.lean ====
section
/-! DEFINITION. One step: the next move of the host, performed whole (20_memory.md R59, R61). The block fetches nothing and
has no program counter (10_state.md R21): a program is the list of words the host writes to CMD, one after another. -/

namespace Sys2Proof.Machine

open Sys2Proof

/-- One step of the machine. -/
def step (s : State) : Host.Outcome State Fault Refusal :=
  match s.pending with
  | [] => idle s
  | m :: rest => applyMove m { s with pending := rest }

/-- `s` with the command word of an opcode-table row as the host's next write to CMD (log 2). -/
def State.withFetchWord (s : State) (nbits w : Nat) : State := s.issueNext (tableWord nbits w)

end Sys2Proof.Machine
end

