-- ==== Sys2Proof/Machine/Assembler.lean ====
section
/-! DEFINITION. The assembler notation of 30_encoding.md R81 and the pseudo-instructions of R82: a line of text to the command
words it stands for. No command reads any of this; it gives programs a notation (92_eei_decisions.md D30; log 8). -/

namespace Sys2Proof.Machine

open Sys2Proof

/-! ### Pseudo-instructions (R82) -/

/-- The pseudo-instructions. -/
inductive Pseudo where
  | getbyte (sel : Sel) (byte : Nat)
  | setbyte (sel : Sel) (byte : Nat) (val : Byte)
  | getcsum (sel : Sel)
  | clrbit (sel : Sel) (byte bit : Nat)
  | send (sel : Sel) (rep : Byte)
  | decode144 (offset : Nat)
  deriving DecidableEq, Repr

/-- The commands a pseudo-instruction expands to. -/
def Pseudo.expand : Pseudo → List Instr
  | .getbyte s y => [.getbits s y 0 8]
  | .setbyte s y v => [.setbits s y 0 8 v]
  | .getcsum s => [.getbits s 17 0 8]
  | .clrbit s y b => [.setbit s y b 0]
  | .send s r => [.stamp s, .encode s r]
  | .decode144 o => [.decode false 144 o]

/-! ### Operands (R81) -/

/-- An operand as written: a record, DECODE's mode, or a number. -/
inductive AsmOperand where
  | sel (q : Sel)
  | mode (strict : Bool)
  | num (n : Nat)
  deriving DecidableEq, Repr

/-- The value of a digit, hexadecimal digits in either case. -/
def digitValue (c : Char) : Option Nat :=
  if '0' ≤ c ∧ c ≤ '9' then some (c.toNat - 48)
  else if 'a' ≤ c ∧ c ≤ 'f' then some (c.toNat - 87)
  else if 'A' ≤ c ∧ c ≤ 'F' then some (c.toNat - 55)
  else none

/-- The digits of a number in a base, most significant first; `acc` is the value so far. -/
def digitsValue (base : Nat) : Nat → List Char → Option Nat
  | acc, [] => some acc
  | acc, c :: cs =>
    match digitValue c with
    | some d => if d < base then digitsValue base (acc * base + d) cs else none
    | none => none

/-- A number, in decimal or with a `0x` prefix in hexadecimal (R81). -/
def numberOf (cs : List Char) : Option Nat :=
  match cs with
  | [] => none
  | ['0', 'x'] => none
  | '0' :: 'x' :: ds => digitsValue 16 0 ds
  | ds => digitsValue 10 0 ds

/-- One operand. -/
def operandOf (cs : List Char) : Option AsmOperand :=
  if cs = "rec".toList then some (.sel .record)
  else if cs = "cand".toList then some (.sel .cand)
  else if cs = "lax".toList then some (.mode false)
  else if cs = "strict".toList then some (.mode true)
  else (numberOf cs).map .num

/-- The pieces of a text between separators. -/
def splitAtChar (sep : Char) : List Char → List (List Char)
  | [] => [[]]
  | c :: cs =>
    match splitAtChar sep cs with
    | [] => [[]]
    | w :: ws => if c = sep then [] :: w :: ws else (c :: w) :: ws

/-- A text without its blanks. -/
def noBlanks (cs : List Char) : List Char := cs.filter fun c => c ≠ ' '

/-- The operands of a line, separated by commas (R81); none where the text after the mnemonic is blank. -/
def operandsOf (cs : List Char) : Option (List AsmOperand) :=
  if noBlanks cs = [] then some []
  else (splitAtChar ',' cs).mapM fun piece => operandOf (noBlanks piece)

/-! ### Commands (R81) -/

/-- The record operand, `rec` where it is omitted, and the operands after it. -/
def takeSel : List AsmOperand → Sel × List AsmOperand
  | .sel q :: rest => (q, rest)
  | ops => (.record, ops)

/-- A VAL operand: refused where it does not fit its 8 bits. -/
def valOf (n : Nat) : Option Byte := if n < 256 then some (BitVec.ofNat 8 n) else none

/-- The commands that take only a record. -/
def selCommands : List (String × (Sel → List Instr)) :=
  [("csum", fun q => [.csum q]), ("stamp", fun q => [.stamp q]), ("isvalid", fun q => [.isvalid q]),
   ("getpower", fun q => [.getpower q]), ("getmode", fun q => [.getmode q]), ("gettemp", fun q => [.gettemp q]),
   ("getfan", fun q => [.getfan q]), ("getswing", fun q => [.getswing q]), ("getturbo", fun q => [.getturbo q]),
   ("getlight", fun q => [.getlight q]), ("getsleep", fun q => [.getsleep q]),
   ("getcsum", fun q => (Pseudo.getcsum q).expand)]

/-- The commands that take a record and a value. -/
def valCommands : List (String × (Sel → Byte → List Instr)) :=
  [("encode", fun q v => [.encode q v]), ("setpower", fun q v => [.setpower q v]), ("setmode", fun q v => [.setmode q v]),
   ("settemp", fun q v => [.settemp q v]), ("setfan", fun q v => [.setfan q v]), ("setswing", fun q v => [.setswing q v]),
   ("setturbo", fun q v => [.setturbo q v]), ("setlight", fun q v => [.setlight q v]),
   ("setsleep", fun q v => [.setsleep q v]), ("send", fun q v => (Pseudo.send q v).expand)]

/-- The commands that take a record and a bit range, and DECODE's forms. -/
def bitCommand (name : String) (q : Sel) (ops : List AsmOperand) : Option (List Instr) :=
  match name, ops with
  | "getbit", [.num y, .num b] => some [.getbit q y b]
  | "setbit", [.num y, .num b, .num v] => (valOf v).map fun v => [.setbit q y b v]
  | "getbits", [.num y, .num a, .num n] => some [.getbits q y a n]
  | "setbits", [.num y, .num a, .num n, .num v] => (valOf v).map fun v => [.setbits q y a n v]
  | "getbyte", [.num y] => some (Pseudo.getbyte q y).expand
  | "setbyte", [.num y, .num v] => (valOf v).map fun v => (Pseudo.setbyte q y v).expand
  | "clrbit", [.num y, .num b] => some (Pseudo.clrbit q y b).expand
  | _, _ => none

/-- The commands of a line with a mnemonic and its operands. -/
def commandsOf (name : String) (ops : List AsmOperand) : Option (List Instr) :=
  match name, ops with
  | "resetrec", [] => some [.resetrec]
  | "decode", [.mode st, .num n, .num o] => some [.decode st n o]
  | "decode144", [.num o] => some (Pseudo.decode144 o).expand
  | _, _ =>
    match selCommands.lookup name, valCommands.lookup name, takeSel ops with
    | some f, _, (q, []) => some (f q)
    | none, some f, (q, [.num v]) => (valOf v).map (f q)
    | none, none, (q, rest) => bitCommand name q rest
    | _, _, _ => none

/-- The word of a command, refused where an operand does not fit its field (R81). -/
def assembleInstr (i : Instr) : Option Word := if i.wf then some (encode i) else none

/-- The command words of one line: a lower-case mnemonic, a blank, operands separated by commas (R81). -/
def assembleChars (line : List Char) : Option (List Word) :=
  match operandsOf (line.dropWhile fun c => c ≠ ' ') with
  | some ops =>
    match commandsOf (String.ofList (line.takeWhile fun c => c ≠ ' ')) ops with
    | some is => is.mapM assembleInstr
    | none => none
  | none => none

/-- The command words of one line of text. -/
def assemble (line : String) : Option (List Word) := assembleChars line.toList

end Sys2Proof.Machine
end

