-- ==== Sys2Proof/Safety.lean ====
section
/-! DEFINITION. What a good state is, in the terms the statements use: RAW in its canonical form and within RAW_CAP entries of
RAW_W bits, RAW_LEN at most RAW_CAP (10_state.md R32, 20_memory.md R67), and TXLOG made of transmissions of the form of R57. And
the classes of commands that the rules name. -/

namespace Sys2Proof.Machine

open Sys2Proof

/-- The form R57 gives every transmission: carrier 38000 Hz, a frame of 146 pairs. -/
abbrev Transmission.wf (tx : Transmission) : Prop := tx.carrierHz = 38000 ∧ tx.frame.length = 146

/-- The invariant of the block. -/
structure State.Inv (s : State) : Prop where
  /-- RAW is in canonical form. -/
  rawCanonical : RawMem.wf s.raw = true
  /-- RAW has entries 0 to RAW_CAP - 1 of RAW_W bits. -/
  rawFits : RawMem.fits s.params s.raw = true
  /-- RAW_LEN <= RAW_CAP. -/
  rawLenLe : s.rawLen.toNat ≤ s.params.rawCap
  /-- TXLOG holds transmissions ENCODE can have made. -/
  txlogWf : ∀ tx ∈ s.txlog, tx.wf

/-- The checksum invariant of a record: its last byte is the sum of the others (10_state.md R38). -/
abbrev Stamped (r : Record) : Prop := r[17] = sum8 r.toList

/-- The state is one right after a command was rejected: E_ILLEGAL, E_RANGE or E_NOCAND (60_exceptions.md R182). -/
abbrev State.rejected (s : State) : Prop := s.code = .illegal ∨ s.code = .range ∨ s.code = .noCand

/-- The state is one right after a structural decode failure (60_exceptions.md R184). -/
abbrev State.decodeFailed (s : State) : Prop :=
  s.code = .length ∨ s.code = .short ∨ s.code = .header ∨ s.code = .noMatch

/-! ### Classes of commands -/

/-- The record a command of format R, V or B selects; none for RESETREC and DECODE. -/
def selOf : Instr → Option Sel
  | .resetrec => none
  | .decode _ _ _ => none
  | .getbit q _ _ => some q
  | .setbit q _ _ _ => some q
  | .getbits q _ _ _ => some q
  | .setbits q _ _ _ _ => some q
  | .csum q => some q
  | .stamp q => some q
  | .isvalid q => some q
  | .encode q _ => some q
  | .setpower q _ => some q
  | .getpower q => some q
  | .setmode q _ => some q
  | .getmode q => some q
  | .settemp q _ => some q
  | .gettemp q => some q
  | .setfan q _ => some q
  | .getfan q => some q
  | .setswing q _ => some q
  | .getswing q => some q
  | .setturbo q _ => some q
  | .getturbo q => some q
  | .setlight q _ => some q
  | .getlight q => some q
  | .setsleep q _ => some q
  | .getsleep q => some q

/-- The operands pass the range check of format B (R79); the other formats have none. -/
def InRange : Instr → Prop
  | .getbit _ y _ => y ≤ 17
  | .setbit _ y _ _ => y ≤ 17
  | .getbits _ y a w => y ≤ 17 ∧ 1 ≤ w ∧ w ≤ 8 ∧ a + w ≤ 8
  | .setbits _ y a w _ => y ≤ 17 ∧ 1 ≤ w ∧ w ≤ 8 ∧ a + w ≤ 8
  | _ => True

/-- The commands that write RES when they complete (R25). -/
def WritesRes : Instr → Prop
  | .getbit _ _ _ | .getbits _ _ _ _ | .csum _ | .isvalid _ => True
  | .getpower _ | .getmode _ | .gettemp _ | .getfan _ | .getswing _ | .getturbo _ | .getlight _ | .getsleep _ => True
  | _ => False

/-- The enumerated getters (R28). -/
def EnumGetter : Instr → Prop
  | .getmode _ | .getfan _ | .getswing _ => True
  | _ => False

/-- DECODE. -/
def IsDecode : Instr → Prop
  | .decode _ _ _ => True
  | _ => False

/-- ENCODE. -/
def IsEncode : Instr → Prop
  | .encode _ _ => True
  | _ => False

/-- The raw setters, which do not stamp (R101). -/
def RawSetter : Instr → Prop
  | .setbit _ _ _ _ | .setbits _ _ _ _ _ => True
  | _ => False

/-- The named setters (R101). -/
def NamedSetter : Instr → Prop
  | .setpower _ _ | .setmode _ _ | .settemp _ _ | .setfan _ _ | .setswing _ _ | .setturbo _ _ | .setlight _ _
  | .setsleep _ _ => True
  | _ => False

/-- The commands that write bytes of the record they select (R54). -/
def WritesRecord : Instr → Prop
  | .setbit _ _ _ _ | .setbits _ _ _ _ _ | .stamp _ | .setpower _ _ | .setmode _ _ | .settemp _ _ | .setfan _ _
  | .setswing _ _ | .setturbo _ _ | .setlight _ _ | .setsleep _ _ => True
  | _ => False

end Sys2Proof.Machine
end

