-- ==== Sys2Proof/Certificates/Slice0/Obligations.lean ====
section
/-! DEFINITION. The statements about the model, one definition each, and the words they are written in. The words say bytes,
bits and sums in plain arithmetic, apart from the helpers the meanings use, so that a wrong helper makes a statement false. -/

namespace Sys2Proof.Claims

open Sys2Proof Sys2Proof.Machine

/-- The record a command selects can be used: REC always, CAND while CAND_VALID = 1 (R183). -/
abbrev Usable (q : Sel) (s : State) : Prop := q = .cand → s.candValid = true

/-- The command completes with v in RES and u in STATUS.UNKNOWN, and changes nothing else. -/
def Answers (i : Instr) (s : State) (v : Nat) (u : Bool) : Prop :=
  exec i s = .next { s with res := BitVec.ofNat 16 v, code := .ok, unknown := u }

/-- The command completes with STATUS.CODE = OK and UNKNOWN = 0 and, apart from the record q, changes nothing else. -/
def CompletesOn (q : Sel) (i : Instr) (s t : State) : Prop :=
  exec i s = .next t ∧ t = { s.withSel q (t.sel q) with code := .ok, unknown := false }

/-- Bits a+w-1..a of byte x hold the low w bits of v, the other bits are those of the byte y. -/
def BitsReplaced (x y : Byte) (a w v : Nat) : Prop :=
  ∀ b < 8, x.getLsbD b = if a ≤ b ∧ b < a + w then v.testBit (b - a) else y.getLsbD b

/-- The sum of bytes 0 to 16 of a record, mod 256 (R13). -/
def byteSum (r : Record) : Nat := ((r.toList.take 17).map BitVec.toNat).sum % 256

/-- A named setter: on a usable record it completes, writes the field (byte i, bits a+w-1..a), keeps every other bit outside
byte 17, and leaves the checksum of the new bytes in byte 17 (R101). -/
def SetsField (instr : Sel → Byte → Instr) (i : ByteIx) (a w : Nat) (value : Byte → Nat) : Prop :=
  ∀ (q : Sel) (v : Byte) (s : State), Usable q s →
    ∃ t, CompletesOn q (instr q v) s t ∧ BitsReplaced (t.sel q)[i] (s.sel q)[i] a w (value v) ∧
      (∀ j : ByteIx, j ≠ i → j ≠ 17 → (t.sel q)[j] = (s.sel q)[j]) ∧ (t.sel q)[17].toNat = byteSum (t.sel q)

/-- An enumerated getter on a field of w bits at the bottom of byte i: a legal value is answered with UNKNOWN = 0, any other
gives the fallback with UNKNOWN = 1 (R28, R41). -/
def GetsEnum (instr : Sel → Instr) (i : ByteIx) (w : Nat) (legal : List Nat) (fallback : Nat) : Prop :=
  ∀ (q : Sel) (s : State), Usable q s →
    ((s.sel q)[i].toNat % 2 ^ w ∈ legal → Answers (instr q) s ((s.sel q)[i].toNat % 2 ^ w) false) ∧
    ((s.sel q)[i].toNat % 2 ^ w ∉ legal → Answers (instr q) s fallback true)

/-- The k-th data bit of a frame: `Rec[k div 8][7 - (k mod 8)]` (R52). -/
def wireBit (r : Record) (k : Nat) : Bool := (r.toList.getD (k / 8) 0).getLsbD (7 - k % 8)

/-- RAW[i] * TICK_US is within tol of ref, either side, the boundary included (R14). -/
def Near (s : State) (i ref tol : Nat) : Prop :=
  s.rawRead i * s.params.tickUs ≤ ref + tol ∧ ref ≤ s.rawRead i * s.params.tickUs + tol

/-- The raw index of the space of data bit k of a frame at offset o (R162). -/
abbrev spaceIx (o k : Nat) : Nat := o + 3 + 2 * k

/-- The space of data bit k matches one of the two references (R165). -/
def Classified (s : State) (o k : Nat) : Prop :=
  Near s (spaceIx o k) s.params.oneSpaceUs s.params.bitTolUs ∨ Near s (spaceIx o k) s.params.zeroSpaceUs s.params.bitTolUs

/-- Header mark and header space are present and within tolerance (R163). -/
def HeaderOk (s : State) (o : Nat) : Prop :=
  o + 1 < s.rawLen.toNat ∧ Near s o s.params.hdrMarkUs s.params.hdrTolUs ∧
    Near s (o + 1) s.params.hdrSpaceUs s.params.hdrTolUs

/-- DECODE ends with the failure c: CAND_VALID and UNKNOWN cleared, CODE = c, nothing else changed (R168). -/
def DecodeFailsWith (c : Code) (strict : Bool) (nbits o : Nat) (s : State) : Prop :=
  exec (.decode strict nbits o) s = .next { s with candValid := false, unknown := false, code := c }

/-- A command ends with `raise Fail(c)`: CODE = c, UNKNOWN cleared, ILL set, nothing else changed (R182). -/
def RejectedWith (c : Code) (i : Instr) (s : State) : Prop :=
  exec i s = .next { s with code := c, unknown := false, ill := true }

/-- The record at reset (R200). -/
def recAtReset : Record :=
  #v[0x23, 0xCB, 0x26, 0x01, 0x00, 0x20, 0x08, 0x06, 0x30, 0x45, 0x67, 0x00, 0x00, 0x00, 0x00, 0x00, 0x00, 0x1F]

end Sys2Proof.Claims

open Sys2Proof Sys2Proof.Machine Sys2Proof.Claims

/-! ### Encoding (30_encoding.md) -/

/-- No operand bit is dropped: the word of every well-formed command decodes to that command. -/
def Obligations.DecodeOfEncodeIsTheInstruction : Prop :=
  ∀ i : Instr, i.wf = true → decode (encode i) = .ok i

/-- Each word has at most one meaning: a word that decodes is the word of the well-formed command it decodes to. So a word with
a nonzero "must be 0" field decodes to nothing (R77). -/
def Obligations.EncodeOfDecodeIsTheWord : Prop :=
  ∀ (w : Word) (i : Instr), decode w = .ok i → i.wf = true ∧ encode i = w

/-- The decoder, written from the formats R71 to R75, agrees with the masks and matches of the opcode map R76: a word is legal
exactly when it selects a row, and then it is that row's command; at most one row is selected. -/
def Obligations.DecodeAgreesWithTheOpcodeMap : Prop :=
  (∀ w : Word, (∃ i, decode w = .ok i) ↔ ∃ r ∈ opcodeTable, r.selects w = true) ∧
  (∀ (w : Word) (i : Instr) (r : OpcodeRow), decode w = .ok i → r ∈ opcodeTable → r.selects w = true →
    r.mnemonic = i.mnemonic) ∧
  (∀ (w : Word) (r r' : OpcodeRow), r ∈ opcodeTable → r' ∈ opcodeTable → r.selects w = true → r'.selects w = true → r = r')

/-- The worked encodings of R83. -/
def Obligations.WorkedEncodingsDecode : Prop :=
  decode 0x082D0000 = .ok (.getbit .record 5 5) ∧ decode 0x0C2D0001 = .ok (.setbit .record 5 5 1) ∧
  decode 0x10484000 = .ok (.getbits .record 9 0 4) ∧ decode 0x14484002 = .ok (.setbits .record 9 0 4 2) ∧
  decode 0x10888000 = .ok (.getbits .record 17 0 8) ∧ decode 0x50000019 = .ok (.settemp .record 25) ∧
  decode 0x30000002 = .ok (.encode .record 2) ∧ decode 0x34900001 = .ok (.decode false 144 1) ∧
  decode 0x36900001 = .ok (.decode true 144 1) ∧ decode 0x4E000000 = .ok (.getmode .cand)

/-! ### Steps and the host's moves (20_memory.md, 70_reset_and_hazards.md) -/

/-- A step whose next host move writes the word of a command to CMD runs that command, with the move gone from the list of moves
to come. The block has no program counter to move (R21). -/
def Obligations.StepRunsTheDecodedCommand : Prop :=
  ∀ (s : State) (w : Word) (rest : List HostMove) (i : Instr), s.pending = .command w :: rest → decode w = .ok i →
    step s = exec i { s with pending := rest }

/-- An illegal word changes no state except STATUS: CODE = 1, UNKNOWN cleared, ILL set (R77). A word is illegal when its OP is
reserved or when its OP is assigned and one of its row's masked bits differs. -/
def Obligations.IllegalWordChangesOnlyStatus : Prop :=
  ∀ (s : State) (w : Word) (rest : List HostMove), s.pending = .command w :: rest →
    (∀ r ∈ opcodeTable, w &&& r.mask ≠ r.bits) →
    step s = .next { s with pending := rest, code := .illegal, unknown := false, ill := true }

/-- Moves are performed one at a time, in the order the host makes them (R61): a step performs the first coming move, whole, and
whatever the move does, the moves after it are then the coming ones. The list of coming moves is the model's (log 2). -/
def Obligations.StepsTakeTheMovesInOrder : Prop :=
  (∀ (s : State) (m : HostMove) (rest : List HostMove), s.pending = m :: rest →
    step s = applyMove m { s with pending := rest }) ∧
  (∀ (s t : State), step s = .next t → t.pending = s.pending.tail)

/-- A host write of RAW[i] within the buffer stores that entry, keeps every other entry, and changes nothing else (R66, R67). -/
def Obligations.HostWriteOfRawStoresOneEntry : Prop :=
  ∀ (s : State) (i v : Nat) (rest : List HostMove), s.pending = .writeRaw i v :: rest → i < s.params.rawCap →
    v < 2 ^ s.params.rawW →
    ∃ t, step s = .next t ∧ t.rawRead i = v ∧ (∀ j, j ≠ i → t.rawRead j = s.rawRead j) ∧
      t = { s with raw := t.raw, pending := rest }

/-- A host write of RAW_LEN of at most RAW_CAP stores it and changes nothing else; a read of the ports changes nothing; with no
move to come the block holds its state (R66, R67, R194; that the machine
then still steps is the model's choice, log 7). -/
def Obligations.OtherHostMovesChangeOnlyTheirTarget : Prop :=
  ∀ (s : State) (rest : List HostMove),
    (∀ n : BitVec 16, s.pending = .writeRawLen n :: rest → n.toNat ≤ s.params.rawCap →
      step s = .next { s with rawLen := n, pending := rest }) ∧
    (s.pending = .observe :: rest → step s = .next { s with pending := rest }) ∧
    (s.pending = [] → step s = .next s)

/-- The model's choice (log 6): a host write that RAW or RAW_LEN cannot hold stops the run under its own name. -/
def Obligations.HostWritesOutsideTheBufferStop : Prop :=
  ∀ (s : State) (rest : List HostMove),
    (∀ i v, s.pending = .writeRaw i v :: rest → s.params.rawCap ≤ i → step s = .fault .rawIndexBeyondCap) ∧
    (∀ i v, s.pending = .writeRaw i v :: rest → i < s.params.rawCap → 2 ^ s.params.rawW ≤ v →
      step s = .fault .rawEntryTooWide) ∧
    (∀ n : BitVec 16, s.pending = .writeRawLen n :: rest → s.params.rawCap < n.toNat → step s = .fault .rawLenAboveCap)

/-- The reset input puts every element with a stated reset value at it, whatever the state was (R200): REC the stamped pattern,
CAND_VALID, RES, STATUS and RAW_LEN zero, TXLOG empty. The parameters stay (R203) and so do the host's other moves. -/
def Obligations.ResetInputPutsTheResetValues : Prop :=
  ∀ (s : State) (rest : List HostMove), s.pending = .reset :: rest →
    ∃ t, step s = .next t ∧ t.record = recAtReset ∧ t.candValid = false ∧ t.res = 0 ∧ t.statusByte = 0 ∧ t.rawLen = 0 ∧
      t.txlog = [] ∧ t.params = s.params ∧ t.pending = rest

/-- The same values hold of the state the machine starts in. -/
def Obligations.StartStateHasTheResetValues : Prop :=
  State.reset.record = recAtReset ∧ State.reset.candValid = false ∧ State.reset.res = 0 ∧ State.reset.statusByte = 0 ∧
    State.reset.rawLen = 0 ∧ State.reset.txlog = []

/-- What the getters answer right after reset (R201): power 1, mode 4 with UNKNOWN (raw 0), temperature 22, fan 0 with UNKNOWN
(raw 5), swing 0 with UNKNOWN (raw 7), turbo, light and sleep 0; and the checksum is valid. -/
def Obligations.GettersAfterResetReadTheDefaultCommand : Prop :=
  Answers (.isvalid .record) State.reset 1 false ∧ Answers (.getpower .record) State.reset 1 false ∧
  Answers (.getbits .record 6 0 3) State.reset 0 false ∧ Answers (.getmode .record) State.reset 4 true ∧
  Answers (.gettemp .record) State.reset 22 false ∧
  Answers (.getbits .record 9 0 4) State.reset 5 false ∧ Answers (.getfan .record) State.reset 0 true ∧
  Answers (.getbits .record 10 0 4) State.reset 7 false ∧ Answers (.getswing .record) State.reset 0 true ∧
  Answers (.getturbo .record) State.reset 0 false ∧ Answers (.getlight .record) State.reset 0 false ∧
  Answers (.getsleep .record) State.reset 0 false

/-! ### Invariants -/

/-- The invariant holds at reset. -/
def Obligations.InvariantAtReset : Prop := State.reset.Inv

/-- Every step keeps the invariant: RAW in canonical form and within RAW_CAP entries of RAW_W bits, RAW_LEN at most RAW_CAP,
TXLOG made of 38 kHz transmissions of 146 pairs. -/
def Obligations.EveryStepKeepsTheInvariant : Prop :=
  ∀ (s t : State), s.Inv → step s = .next t → t.Inv

/-- The parameters are fixed for the life of the block: no step changes them (R203). -/
def Obligations.NoStepChangesTheParameters : Prop :=
  ∀ (s t : State), step s = .next t → t.params = s.params

/-- The checksum invariant (R38), for each of the two records: a completed named setter or STAMP on it leaves it true, RESETREC leaves
it true of REC, and no command but SETBIT and SETBITS on it, and DECODE for CAND, can break it. -/
def Obligations.OnlyRawSettersBreakTheChecksum : Prop :=
  ∀ (i : Instr) (s t : State) (q : Sel), exec i s = .next t →
    (t.code = .ok → selOf i = some q → (NamedSetter i ∨ i = .stamp q) → (t.sel q)[17].toNat = byteSum (t.sel q)) ∧
    (i = .resetrec → t.record[17].toNat = byteSum t.record) ∧
    ((s.sel q)[17].toNat = byteSum (s.sel q) → ¬ (RawSetter i ∧ selOf i = some q) → ¬ (IsDecode i ∧ q = .cand) →
      (t.sel q)[17].toNat = byteSum (t.sel q))

/-! ### STATUS, RES, CAND_VALID and TXLOG over all commands (10_state.md, 60_exceptions.md) -/

/-- The STATUS byte (R26, R29): CODE in bits 3:0, UNKNOWN bit 4, CANDV bit 5 mirrors CAND_VALID, bit 6 reads 0, ILL bit 7; and the
numbers of the codes (R27): OK 0, E_ILLEGAL 1, E_RANGE 2, E_NOCAND 3, E_LENGTH 4, E_SHORT 5, E_HEADER 6, E_NOMATCH 7. -/
def Obligations.StatusByteLayout : Prop :=
  (Code.toBits .ok = 0 ∧ Code.toBits .illegal = 1 ∧ Code.toBits .range = 2 ∧ Code.toBits .noCand = 3 ∧
    Code.toBits .length = 4 ∧ Code.toBits .short = 5 ∧ Code.toBits .header = 6 ∧ Code.toBits .noMatch = 7) ∧
  ∀ s : State, s.statusByte.toNat % 16 = s.code.toBits.toNat ∧ s.code.toBits.toNat < 8 ∧
    s.statusByte.getLsbD 4 = s.unknown ∧ s.statusByte.getLsbD 5 = s.candValid ∧ s.statusByte.getLsbD 6 = false ∧
    s.statusByte.getLsbD 7 = s.ill

/-- Every command ends by completing or by failing with a code; none traps, stops or is refused (R180). -/
def Obligations.EveryCommandEndsWithACode : Prop :=
  ∀ (s : State) (w : Word) (rest : List HostMove), s.pending = .command w :: rest →
    ∃ t, step s = .next t ∧ (t.code = .ok ∨ t.rejected ∨ t.decodeFailed)

/-- ILL is sticky (R30): a command sets it exactly when it fails with E_ILLEGAL, E_RANGE or E_NOCAND and otherwise keeps it; only
the reset event clears it. -/
def Obligations.IllIsSticky : Prop :=
  (∀ (s t : State) (w : Word) (rest : List HostMove), s.pending = .command w :: rest → step s = .next t →
    (t.ill = true ↔ s.ill = true ∨ t.rejected)) ∧
  (∀ (s t : State), step s = .next t → s.ill = true → s.pending.head? ≠ some .reset → t.ill = true) ∧
  (∀ (s t : State), step s = .next t → s.pending.head? = some .reset → t.ill = false)

/-- UNKNOWN is 1 after a command only if the command is GETMODE, GETFAN or GETSWING and completed (R28). -/
def Obligations.OnlyEnumGettersSetUnknown : Prop :=
  ∀ (i : Instr) (s t : State), exec i s = .next t → t.unknown = true → EnumGetter i ∧ t.code = .ok

/-- RES is written only by the commands with a result, and only when they complete (R25). -/
def Obligations.OnlyCompletedGettersWriteRes : Prop :=
  ∀ (i : Instr) (s t : State), exec i s = .next t → t.res ≠ s.res → WritesRes i ∧ t.code = .ok

/-- CAND_VALID is written by DECODE alone: set to 1 when it succeeds, cleared to 0 when it fails; it is 0 after reset (R24). -/
def Obligations.OnlyDecodeWritesCandValid : Prop :=
  (∀ (i : Instr) (s t : State), exec i s = .next t →
    (IsDecode i → (t.candValid = true ↔ t.code = .ok)) ∧ (¬ IsDecode i → t.candValid = s.candValid)) ∧
  (∀ (s t : State) (rest : List HostMove), s.pending = .reset :: rest → step s = .next t → t.candValid = false)

/-- TXLOG: ENCODE appends one entry of the form of R57 when it completes; no other command writes it; a step that is neither an
ENCODE that completes nor reset leaves it as it is, an illegal word, a host write, a read and an idle step among them; reset
empties it (R33). -/
def Obligations.OnlyEncodeAppendsToTheLog : Prop :=
  (∀ (i : Instr) (s t : State), exec i s = .next t →
    (IsEncode i ∧ t.code = .ok → ∃ tx : Transmission, tx.wf ∧ t.txlog = s.txlog ++ [tx]) ∧
    (¬ (IsEncode i ∧ t.code = .ok) → t.txlog = s.txlog)) ∧
  (∀ (s t : State), step s = .next t → s.pending.head? ≠ some .reset →
    (∀ (w : Word) (i : Instr), s.pending.head? = some (.command w) → decode w = .ok i → IsEncode i → t.code ≠ .ok) →
    t.txlog = s.txlog) ∧
  (∀ (s t : State) (rest : List HostMove), s.pending = .reset :: rest → step s = .next t → t.txlog = [])

/-- A record changes only by a completed command: REC by RESETREC and by the setters and STAMP with SEL = 0, CAND by DECODE and by
those with SEL = 1 (R22, R23, R66); in particular no getter, CSUM, ISVALID or ENCODE writes a record (R154). -/
def Obligations.OnlyWritersChangeARecord : Prop :=
  ∀ (i : Instr) (s t : State), exec i s = .next t →
    (t.record ≠ s.record → t.code = .ok ∧ (i = .resetrec ∨ WritesRecord i ∧ selOf i = some .record)) ∧
    (t.cand ≠ s.cand → t.code = .ok ∧ (IsDecode i ∨ WritesRecord i ∧ selOf i = some .cand))

/-- The block never writes RAW or RAW_LEN (R56), nor the parameters or the model's own fields. -/
def Obligations.NoCommandWritesTheRawBuffer : Prop :=
  ∀ (i : Instr) (s t : State), exec i s = .next t →
    t.raw = s.raw ∧ t.rawLen = s.rawLen ∧ t.params = s.params ∧ t.pending = s.pending ∧ t.resets = s.resets

/-- A command that fails with E_ILLEGAL, E_RANGE or E_NOCAND changes CODE, UNKNOWN and ILL and nothing else (R182). -/
def Obligations.RejectedCommandChangesOnlyStatus : Prop :=
  ∀ (s t : State) (w : Word) (rest : List HostMove), s.pending = .command w :: rest → step s = .next t → t.rejected →
    t = { s with pending := rest, code := t.code, unknown := false, ill := true }

/-- A decode failure leaves CAND_VALID = 0, UNKNOWN = 0 and the code, and every other element, ILL and CAND's bytes among them,
as it was; only DECODE ends so (R168, R184). -/
def Obligations.DecodeFailureChangesOnlyCandValidAndCode : Prop :=
  ∀ (i : Instr) (s t : State), exec i s = .next t → t.decodeFailed →
    IsDecode i ∧ t = { s with candValid := false, unknown := false, code := t.code }

/-- Candidate gating: a command with SEL = 1 issued while CAND_VALID = 0 fails with E_NOCAND, once its range check has passed
(R183, R185). -/
def Obligations.NoCommandUsesAnInvalidCandidate : Prop :=
  ∀ (i : Instr) (s : State), selOf i = some .cand → s.candValid = false → InRange i → RejectedWith .noCand i s

/-- The range check comes first: an operand out of range fails with E_RANGE whatever SEL and CAND_VALID are (R79, R185). -/
def Obligations.OutOfRangeOperandsAreRejected : Prop :=
  ∀ (i : Instr) (s : State), ¬ InRange i → RejectedWith .range i s

/-- A command completes unless a check of R185 fails: in range, and its record usable. (DECODE has its own checks.) -/
def Obligations.CheckedCommandsComplete : Prop :=
  ∀ (i : Instr) (s : State), ¬ IsDecode i → InRange i → (∀ q, selOf i = some q → Usable q s) →
    ∃ t, exec i s = .next t ∧ t.code = .ok

/-- Issuing the same command again changes nothing more, for every command but ENCODE. R59 says so of the commands that neither emit
nor write; that it holds of the setters, STAMP, RESETREC, DECODE and rejected commands too is derived from their own rules. -/
def Obligations.EveryCommandButEncodeIsIdempotent : Prop :=
  ∀ (i : Instr) (s t : State), ¬ IsEncode i → exec i s = .next t → exec i t = .next t

/-- While CAND_VALID = 0 nothing a command does depends on the bytes of CAND (R23, R183): two states that differ in CAND alone go to
states that differ in CAND alone, and not even there once CAND_VALID is 1. So the model's choice of CAND's reset bytes (log 3)
cannot be seen. -/
def Obligations.InvalidCandidateIsUnobservable : Prop :=
  ∀ (i : Instr) (s t : State) (c : Record), s.candValid = false → exec i s = .next t →
    ∃ c' : Record, exec i { s with cand := c } = .next { t with cand := c' } ∧ (t.candValid = true → c' = t.cand)

/-- No command sees the host's coming moves, which are the model's own (log 2). -/
def Obligations.NoCommandSeesTheComingMoves : Prop :=
  ∀ (i : Instr) (s t : State) (ms : List HostMove), exec i s = .next t →
    exec i { s with pending := ms } = .next { t with pending := ms }

/-! ### Record creation and named fields (40_fields.md) -/

/-- RESETREC re-creates REC from the reset pattern with the checksum 0x1F, whatever REC held, and changes nothing else but
STATUS (R100). -/
def Obligations.ResetrecRestoresTheDefaultRecord : Prop :=
  ∀ s : State, exec .resetrec s = .next { s with record := recAtReset, code := .ok, unknown := false }

/-- SETPOWER, SETTURBO, SETLIGHT and SETSLEEP write bit 5 of bytes 5, 11, 12 and 13: 1 for every nonzero VAL, else 0; they keep
every other bit and stamp (R102, R112, R114, R116). -/
def Obligations.FlagSettersWriteOneBitAndStamp : Prop :=
  SetsField .setpower 5 5 1 (fun v => if v = 0 then 0 else 1) ∧ SetsField .setturbo 11 5 1 (fun v => if v = 0 then 0 else 1) ∧
  SetsField .setlight 12 5 1 (fun v => if v = 0 then 0 else 1) ∧ SetsField .setsleep 13 5 1 (fun v => if v = 0 then 0 else 1)

/-- SETMODE, SETFAN and SETSWING write the low 3, 4 and 4 bits of VAL, unvalidated, to the bottom of bytes 6, 9 and 10; they keep
every other bit and stamp (R104, R108, R110). -/
def Obligations.EnumSettersTruncateAndStamp : Prop :=
  SetsField .setmode 6 0 3 BitVec.toNat ∧ SetsField .setfan 9 0 4 BitVec.toNat ∧ SetsField .setswing 10 0 4 BitVec.toNat

/-- SETTEMP clamps VAL to 16..31, stores the clamped value less 16 in the whole of byte 7, keeps every other byte and stamps
(R106). -/
def Obligations.SettempClampsAndStamps : Prop :=
  SetsField .settemp 7 0 8 (fun t => min (max t.toNat 16) 31 - 16)

/-- GETPOWER, GETTURBO, GETLIGHT and GETSLEEP answer bit 5 of bytes 5, 11, 12 and 13 (R103, R113, R115, R117). -/
def Obligations.FlagGettersAnswerBitFive : Prop :=
  ∀ (q : Sel) (s : State), Usable q s →
    Answers (.getpower q) s ((s.sel q)[5].toNat / 32 % 2) false ∧ Answers (.getturbo q) s ((s.sel q)[11].toNat / 32 % 2) false ∧
    Answers (.getlight q) s ((s.sel q)[12].toNat / 32 % 2) false ∧ Answers (.getsleep q) s ((s.sel q)[13].toNat / 32 % 2) false

/-- GETMODE, GETFAN and GETSWING answer a legal raw value as it is, and auto (4, 0, 0) with UNKNOWN = 1 otherwise (R105, R109,
R111, R41). -/
def Obligations.EnumGettersFallBackToAuto : Prop :=
  GetsEnum .getmode 6 3 [4, 1, 2, 3, 5] 4 ∧ GetsEnum .getfan 9 4 [0, 1, 2, 3, 4] 0 ∧
  GetsEnum .getswing 10 4 [0, 1, 2, 3, 4] 0

/-- GETTEMP answers byte 7 plus 16, not clamped and not wrapped (R107). -/
def Obligations.GettempAnswersByteSevenPlusSixteen : Prop :=
  ∀ (q : Sel) (s : State), Usable q s → Answers (.gettemp q) s ((s.sel q)[7].toNat + 16) false

/-! ### Bit-field access (41_bitfield.md) -/

/-- GETBIT answers bit BIT of byte BYTE; GETBITS answers bits BIT+WIDTH-1..BIT, zero-extended (R131, R133). -/
def Obligations.BitGettersAnswerTheAddressedBits : Prop :=
  (∀ (q : Sel) (y : ByteIx) (b : Nat) (s : State), Usable q s → b < 8 →
    Answers (.getbit q y b) s ((s.sel q)[y].toNat / 2 ^ b % 2) false) ∧
  (∀ (q : Sel) (y : ByteIx) (a w : Nat) (s : State), Usable q s → 1 ≤ w → a + w ≤ 8 →
    Answers (.getbits q y a w) s ((s.sel q)[y].toNat / 2 ^ a % 2 ^ w) false)

/-- The isolation law (R135) with the values written: SETBIT writes one bit, 1 for every nonzero VAL; SETBITS writes the low WIDTH
bits of VAL; every other bit of the byte, every other byte, the other record and all other state but STATUS stay, and nothing is
stamped (R132, R134). -/
def Obligations.RawSettersChangeOnlyTheAddressedBits : Prop :=
  (∀ (q : Sel) (y : ByteIx) (b : Nat) (v : Byte) (s : State), Usable q s → b < 8 →
    ∃ t, CompletesOn q (.setbit q y b v) s t ∧
      BitsReplaced (t.sel q)[y] (s.sel q)[y] b 1 (if v = 0 then 0 else 1) ∧ ∀ j : ByteIx, j ≠ y → (t.sel q)[j] = (s.sel q)[j]) ∧
  (∀ (q : Sel) (y : ByteIx) (a w : Nat) (v : Byte) (s : State), Usable q s → 1 ≤ w → a + w ≤ 8 →
    ∃ t, CompletesOn q (.setbits q y a w v) s t ∧
      BitsReplaced (t.sel q)[y] (s.sel q)[y] a w v.toNat ∧ ∀ j : ByteIx, j ≠ y → (t.sel q)[j] = (s.sel q)[j])

/-- The laws of the helpers (R136). -/
def Obligations.BitHelperLaws : Prop :=
  ∀ (x v : Byte) (a w : Nat), 1 ≤ w → a + w ≤ 8 →
    (getBitsFn (setBitsFn x a w v) a w).toNat = v.toNat % 2 ^ w ∧ setBitsFn x a w (getBitsFn x a w) = x

/-- The expansions of R82, for all operands; and, derived from R132 to R134 for a byte and a bit of a usable record, what four of
them do: getbyte and getcsum answer the byte, setbyte writes the whole byte and clrbit clears the bit, each changing nothing else.
(What `send` does is SendEmitsAFreshChecksum, and `decode144` is a DECODE, of which the statements on 44_decoder.md speak.) -/
def Obligations.PseudoInstructionsExpandAsNamed : Prop :=
  (∀ (q : Sel) (y b o : Nat) (v rep : Byte),
    (Pseudo.getbyte q y).expand = [.getbits q y 0 8] ∧ (Pseudo.setbyte q y v).expand = [.setbits q y 0 8 v] ∧
    (Pseudo.getcsum q).expand = [.getbits q 17 0 8] ∧ (Pseudo.clrbit q y b).expand = [.setbit q y b 0] ∧
    (Pseudo.send q rep).expand = [.stamp q, .encode q rep] ∧ (Pseudo.decode144 o).expand = [.decode false 144 o]) ∧
  (∀ (q : Sel) (y : ByteIx) (s : State), Usable q s →
    Answers (.getbits q y 0 8) s (s.sel q)[y].toNat false ∧ Answers (.getbits q 17 0 8) s (s.sel q)[17].toNat false ∧
    (∀ v : Byte, ∃ t, CompletesOn q (.setbits q y 0 8 v) s t ∧ t.sel q = (s.sel q).set y v) ∧
    (∀ b < 8, ∃ t, CompletesOn q (.setbit q y b 0) s t ∧ BitsReplaced (t.sel q)[y] (s.sel q)[y] b 1 0 ∧
      ∀ j : ByteIx, j ≠ y → (t.sel q)[j] = (s.sel q)[j]))

/-! ### Checksum (42_checksum.md) -/

/-- CSUM answers the sum of bytes 0 to 16 mod 256; ISVALID answers 1 exactly when byte 17 is that sum, else 0 (R141, R143). -/
def Obligations.ChecksumCommandsAnswerTheSum : Prop :=
  ∀ (q : Sel) (s : State), Usable q s →
    Answers (.csum q) s (byteSum (s.sel q)) false ∧
    Answers (.isvalid q) s (if (s.sel q)[17].toNat = byteSum (s.sel q) then 1 else 0) false

/-- STAMP writes the sum of bytes 0 to 16 mod 256 to byte 17 and changes no other byte (R142). -/
def Obligations.StampWritesOnlyTheChecksum : Prop :=
  ∀ (q : Sel) (s : State), Usable q s →
    ∃ t, CompletesOn q (.stamp q) s t ∧ (t.sel q)[17].toNat = byteSum (s.sel q) ∧
      ∀ j : ByteIx, j ≠ 17 → (t.sel q)[j] = (s.sel q)[j]

/-- The checksum laws (R144): a second STAMP changes nothing; after STAMP, ISVALID gives 1; CSUM then STAMP leaves byte 17 equal to
the RES CSUM wrote; adding d to one byte below 17 adds d to the sum, mod 256. -/
def Obligations.ChecksumLaws : Prop :=
  (∀ (q : Sel) (s t : State), Usable q s → exec (.stamp q) s = .next t →
    exec (.stamp q) t = .next t ∧ Answers (.isvalid q) t 1 false) ∧
  (∀ (q : Sel) (s t u : State), Usable q s → exec (.csum q) s = .next t → exec (.stamp q) t = .next u →
    (u.sel q)[17].toNat = u.res.toNat) ∧
  (∀ (r : Record) (i : ByteIx) (d : Byte), i ≠ 17 → sum8 (r.set i (r[i] + d)).toList = sum8 r.toList + d)

/-! ### Encoder (43_encoder.md) -/

/-- ENCODE appends one transmission: 38000 Hz, the requested count raised to MIN_REPEAT, the frame of the record as it stands; it
writes no record, no RES, and nothing else but STATUS (R151, R152, R154). -/
def Obligations.EncodeAppendsTheFrame : Prop :=
  ∀ (q : Sel) (rep : Byte) (s : State), Usable q s →
    exec (.encode q rep) s = .next { s with
      txlog := s.txlog ++ [⟨38000, max rep.toNat s.params.minRepeat, frameOf s.params (s.sel q)⟩], code := .ok, unknown := false }

/-- The frame (R150, R52): 146 pairs; pair 0 is the header, pair k+1 carries `r[k div 8][7 - (k mod 8)]`, pair 145 is the trailing
mark and the gap. -/
def Obligations.FrameCarriesTheBitsInWireOrder : Prop :=
  ∀ (p : Config.Params) (r : Record),
    (frameOf p r).length = 146 ∧ (frameOf p r)[0]? = some ⟨p.hdrMarkUs, p.hdrSpaceUs⟩ ∧
    (∀ k < 144, (frameOf p r)[k + 1]? = some ⟨p.bitMarkUs, if wireBit r k then p.oneSpaceUs else p.zeroSpaceUs⟩) ∧
    (frameOf p r)[145]? = some ⟨p.trailMarkUs, p.gapUs⟩

/-- The train of one ENCODE has 2 * 146 * N durations and the total time of R155, c1 the number of 1 bits of the record. -/
def Obligations.TrainLengthAndTime : Prop :=
  ∀ (p : Config.Params) (r : Record) (rep : Byte) (n c1 : Nat), n = max rep.toNat p.minRepeat →
    c1 = (r.toList.map fun b => (List.range 8).countP b.getLsbD).sum →
    (transmissionOf p r rep).train.length = 2 * 146 * n ∧
    (transmissionOf p r rep).train.sum =
      n * (p.hdrMarkUs + p.hdrSpaceUs + 144 * p.bitMarkUs + c1 * p.oneSpaceUs + (144 - c1) * p.zeroSpaceUs + p.trailMarkUs +
        p.gapUs)

/-- `send` (R82): STAMP then ENCODE sends a frame whose checksum is right, the other bytes as they were, which is the duty of R204. -/
def Obligations.SendEmitsAFreshChecksum : Prop :=
  ∀ (q : Sel) (rep : Byte) (s : State), Usable q s →
    (Pseudo.send q rep).expand = [.stamp q, .encode q rep] ∧
    ∃ t u r, exec (.stamp q) s = .next t ∧ exec (.encode q rep) t = .next u ∧
      u.txlog = s.txlog ++ [⟨38000, max rep.toNat s.params.minRepeat, frameOf s.params r⟩] ∧
      r[17].toNat = byteSum r ∧ ∀ j : ByteIx, j ≠ 17 → r[j] = (s.sel q)[j]

/-! ### Decoder (44_decoder.md) -/

/-- DECODE succeeds when NBITS is 144, the buffer holds the 290 entries, the header matches and every space is classified; CAND then
holds bit k at `[k div 8][7 - (k mod 8)]`, 1 exactly when the one window contains its space, and CAND_VALID is 1. Nothing else but
STATUS changes, no mark of a data bit matters, and neither does the checksum (R160 to R167, R170). -/
def Obligations.DecodeAssemblesTheClassifiedBits : Prop :=
  ∀ (s : State) (strict : Bool) (o : Nat), o + 290 ≤ s.rawLen.toNat → HeaderOk s o → (∀ k < 144, Classified s o k) →
    ∃ t, exec (.decode strict 144 o) s = .next t ∧
      t = { s with cand := t.cand, candValid := true, code := .ok, unknown := false } ∧
      ∀ k < 144, (wireBit t.cand k = true ↔ Near s (spaceIx o k) s.params.oneSpaceUs s.params.bitTolUs)

/-- DECODE's failures, in the order of its checks (R161 to R165, R185): E_LENGTH before anything; then, entry by entry, E_SHORT
where the buffer ends, E_HEADER where the header mark or space is out of tolerance, E_NOMATCH where a space matches neither
reference. -/
def Obligations.DecodeReportsTheFirstFailure : Prop :=
  ∀ (s : State) (strict : Bool) (o : Nat),
    (∀ nbits, nbits ≠ 144 → DecodeFailsWith .length strict nbits o s) ∧
    (s.rawLen.toNat ≤ o → DecodeFailsWith .short strict 144 o s) ∧
    (o < s.rawLen.toNat → ¬ Near s o s.params.hdrMarkUs s.params.hdrTolUs → DecodeFailsWith .header strict 144 o s) ∧
    (s.rawLen.toNat = o + 1 → Near s o s.params.hdrMarkUs s.params.hdrTolUs → DecodeFailsWith .short strict 144 o s) ∧
    (o + 1 < s.rawLen.toNat → Near s o s.params.hdrMarkUs s.params.hdrTolUs →
      ¬ Near s (o + 1) s.params.hdrSpaceUs s.params.hdrTolUs → DecodeFailsWith .header strict 144 o s) ∧
    (∀ k < 144, HeaderOk s o → (∀ j < k, spaceIx o j < s.rawLen.toNat ∧ Classified s o j) → s.rawLen.toNat ≤ spaceIx o k →
      DecodeFailsWith .short strict 144 o s) ∧
    (∀ k < 144, HeaderOk s o → (∀ j < k, Classified s o j) → spaceIx o k < s.rawLen.toNat → ¬ Classified s o k →
      DecodeFailsWith .noMatch strict 144 o s)

/-- The STRICT bit changes nothing (R169). -/
def Obligations.StrictChangesNothing : Prop :=
  ∀ (s : State) (nbits o : Nat), exec (.decode true nbits o) s = exec (.decode false nbits o) s

/-- Entries outside RAW[o] to RAW[o+289] are never read (R171), nor is one at or past RAW_LEN: two captures that agree on the entries
below o+290 that lie in the capture decode alike, whatever else they hold. So a capture that ends exactly at RAW[o+289] decodes as a
longer one does. -/
def Obligations.DecodeReadsOnlyTheFrame : Prop :=
  ∀ (s t : State) (strict : Bool) (nbits o : Nat) (m : RawMem) (n : BitVec 16),
    min n.toNat (o + 290) = min s.rawLen.toNat (o + 290) →
    (∀ j < 290, o + j < s.rawLen.toNat → ({ s with raw := m } : State).rawRead (o + j) = s.rawRead (o + j)) →
    exec (.decode strict nbits o) s = .next t →
      exec (.decode strict nbits o) { s with raw := m, rawLen := n } = .next { t with raw := m, rawLen := n }

/-- The tolerance boundary (R173): a header mark exactly HDR_TOL_US above or below HDR_MARK_US passes its check (a later E_HEADER is
the header space's); one HDR_TOL_US + 1 away fails it with E_HEADER. -/
def Obligations.HeaderToleranceIsInclusive : Prop :=
  ∀ (s : State) (strict : Bool) (o : Nat), o < s.rawLen.toNat →
    ((s.rawRead o * s.params.tickUs = s.params.hdrMarkUs + s.params.hdrTolUs ∨
        s.rawRead o * s.params.tickUs + s.params.hdrTolUs = s.params.hdrMarkUs) →
      ∃ t, exec (.decode strict 144 o) s = .next t ∧
        (t.code = .header → o + 1 < s.rawLen.toNat ∧ ¬ Near s (o + 1) s.params.hdrSpaceUs s.params.hdrTolUs)) ∧
    ((s.rawRead o * s.params.tickUs = s.params.hdrMarkUs + s.params.hdrTolUs + 1 ∨
        s.rawRead o * s.params.tickUs + s.params.hdrTolUs + 1 = s.params.hdrMarkUs) →
      DecodeFailsWith .header strict 144 o s)

/-- The round trip (R172): a capture of the frame of any record, header entries within HDR_TOL_US, spaces within BIT_TOL_US and no
space of a 0 bit in the one window, decodes to that record. In particular so do exact ticks, where TICK_US divides every duration of
the frame and the one and zero spaces are more than BIT_TOL_US apart. -/
def Obligations.DecodeRecoversTheEncodedRecord : Prop :=
  ∀ (s : State) (r : Record) (strict : Bool) (o : Nat), o + 290 ≤ s.rawLen.toNat →
    ((∀ j < 2, ∀ d, (durations (frameOf s.params r))[j]? = some d → Near s (o + j) d s.params.hdrTolUs) →
      (∀ j < 290, 3 ≤ j → j % 2 = 1 → ∀ d, (durations (frameOf s.params r))[j]? = some d →
        Near s (o + j) d s.params.bitTolUs) →
      (∀ k < 144, wireBit r k = false → ¬ Near s (spaceIx o k) s.params.oneSpaceUs s.params.bitTolUs) →
      exec (.decode strict 144 o) s = .next { s with cand := r, candValid := true, code := .ok, unknown := false }) ∧
    ((∀ d ∈ durations (frameOf s.params r), s.params.tickUs ∣ d) →
      s.params.bitTolUs < (s.params.oneSpaceUs - s.params.zeroSpaceUs) + (s.params.zeroSpaceUs - s.params.oneSpaceUs) →
      (∀ j < 290, ∀ d, (durations (frameOf s.params r))[j]? = some d → s.rawRead (o + j) = d / s.params.tickUs) →
      exec (.decode strict 144 o) s = .next { s with cand := r, candValid := true, code := .ok, unknown := false })

/-- `decode(encode(R)) == R` with noiseless ticks (R172): ENCODE a usable record; put the durations of the transmission it appended,
each divided by TICK_US, into RAW from index o on; where TICK_US divides every duration of the frame and the one and zero spaces are
more than BIT_TOL_US apart, DECODE gives that record back. -/
def Obligations.NoiselessRoundTrip : Prop :=
  ∀ (s t u : State) (q : Sel) (rep : Byte) (strict : Bool) (o : Nat) (tx : Transmission), Usable q s →
    exec (.encode q rep) s = .next t → t.txlog = s.txlog ++ [tx] → u.params = s.params → o + 290 ≤ u.rawLen.toNat →
    (∀ d ∈ durations tx.frame, s.params.tickUs ∣ d) →
    s.params.bitTolUs < (s.params.oneSpaceUs - s.params.zeroSpaceUs) + (s.params.zeroSpaceUs - s.params.oneSpaceUs) →
    (∀ j < 290, ∀ d, (durations tx.frame)[j]? = some d → u.rawRead (o + j) = d / s.params.tickUs) →
    exec (.decode strict 144 o) u = .next { u with cand := s.sel q, candValid := true, code := .ok, unknown := false }
end

