-- ==== Sys2Proof/Laws/Decode.lean ====
section
/-! SUPPORT. The fields of a command word in arithmetic, and what each format of the decoder answers. -/

namespace Sys2Proof

/-- `v[hi:lo]` as a quotient and a remainder. -/
theorem bitField_eq (w : Word) (hi lo : Nat) : bitField w hi lo = w.toNat / 2 ^ lo % 2 ^ (hi - lo + 1) := by
  simp [bitField, BitVec.extractLsb_toNat, Nat.shiftRight_eq_div_pow]

theorem opField_eq (w : Word) : opField w = w.toNat / 2 ^ 26 := by
  have := w.isLt
  rw [opField, bitField_eq]; omega

theorem ifZero_ok_iff (w : Word) (c : Bool) (i j : Instr) : ifZero w c i = .ok j ↔ c = true ∧ i = j := by
  cases c <;> simp [ifZero]

theorem selField_toBit (w : Word) : (selField w).toBit = bitField w 25 25 := by
  have h : bitField w 25 25 < 2 := by rw [bitField_eq]; omega
  unfold selField
  split
  · next h1 => simp [Sel.toBit, h1]
  · next h1 => simp only [Sel.toBit]; omega

theorem strictField_toNat (w : Word) : (strictField w).toNat = bitField w 25 25 := by
  have h : bitField w 25 25 < 2 := by rw [bitField_eq]; omega
  by_cases h1 : bitField w 25 25 = 1
  · simp [strictField, h1]
  · simp only [strictField, h1, decide_false, Bool.toNat_false]; omega

theorem valField_toNat (w : Word) : (valField w).toNat = bitField w 7 0 := by
  rw [valField, BitVec.toNat_ofNat, bitField_eq]; omega

theorem selField_of_bit {w : Word} {q : Sel} (h : bitField w 25 25 = q.toBit) : selField w = q := by
  cases q <;> simp_all [selField, Sel.toBit]

theorem strictField_of_bit {w : Word} {b : Bool} (h : bitField w 25 25 = b.toNat) : strictField w = b := by
  cases b <;> simp_all [strictField]

theorem valField_of_bits {w : Word} {v : Byte} (h : bitField w 7 0 = v.toNat) : valField w = v := by
  simp [valField, h]

/-- The fields of a packed word of formats R and V. -/
theorem packV_fields {n : Nat} (q : Sel) (v : Byte) {w : Word} (hn : n < 64)
    (hw : w = BitVec.ofNat 32 (n * 2 ^ 26 + packV q v)) :
    opField w = n ∧ selField w = q ∧ valField w = v ∧ bitField w 24 8 = 0 ∧ bitField w 7 0 = v.toNat := by
  have hv := v.isLt
  have hq : q.toBit < 2 := by cases q <;> decide
  have hnat : w.toNat = n * 2 ^ 26 + q.toBit * 2 ^ 25 + v.toNat := by
    rw [hw, BitVec.toNat_ofNat, packV]; omega
  refine ⟨?_, selField_of_bit ?_, valField_of_bits ?_, ?_, ?_⟩ <;> simp only [opField_eq, bitField_eq, hnat] <;> omega

/-- The fields of a packed word of format B. -/
theorem packB_fields {n y b l : Nat} (q : Sel) (v : Byte) {w : Word} (hn : n < 64) (hy : y < 32) (hb : b < 8) (hl : l < 16)
    (hw : w = BitVec.ofNat 32 (n * 2 ^ 26 + packB q y b l v)) :
    opField w = n ∧ selField w = q ∧ bitField w 24 24 = 0 ∧ bitField w 23 19 = y ∧ bitField w 18 16 = b ∧
      bitField w 15 12 = l ∧ bitField w 11 8 = 0 ∧ valField w = v ∧ bitField w 7 0 = v.toNat := by
  have hv := v.isLt
  have hq : q.toBit < 2 := by cases q <;> decide
  have hnat : w.toNat = n * 2 ^ 26 + q.toBit * 2 ^ 25 + y * 2 ^ 19 + b * 2 ^ 16 + l * 2 ^ 12 + v.toNat := by
    rw [hw, BitVec.toNat_ofNat, packB]; omega
  refine ⟨?_, selField_of_bit ?_, ?_, ?_, ?_, ?_, ?_, valField_of_bits ?_, ?_⟩ <;>
    simp only [opField_eq, bitField_eq, hnat] <;> omega

/-- The fields of a packed word of format D. -/
theorem packD_fields {n m o : Nat} (b : Bool) {w : Word} (hn : n < 64) (hm : m < 512) (ho : o < 65536)
    (hw : w = BitVec.ofNat 32 (n * 2 ^ 26 + packD b m o)) :
    opField w = n ∧ strictField w = b ∧ bitField w 24 16 = m ∧ bitField w 15 0 = o := by
  have hb : b.toNat < 2 := by cases b <;> decide
  have hnat : w.toNat = n * 2 ^ 26 + b.toNat * 2 ^ 25 + m * 2 ^ 16 + o := by
    rw [hw, BitVec.toNat_ofNat, packD]; omega
  refine ⟨?_, strictField_of_bit ?_, ?_, ?_⟩ <;> simp only [opField_eq, bitField_eq, hnat] <;> omega

/-- A mask of one run of ones keeps those bits in place. -/
theorem and_run (n len lo : Nat) : n &&& ((2 ^ len - 1) * 2 ^ lo) = n / 2 ^ lo % 2 ^ len * 2 ^ lo := by
  apply Nat.eq_of_testBit_eq
  intro i
  simp only [Nat.testBit_and, Nat.testBit_mul_two_pow, Nat.testBit_two_pow_sub_one, Nat.testBit_mod_two_pow,
    Nat.testBit_div_two_pow]
  by_cases hi : lo ≤ i
  · simp [hi, Nat.sub_add_cancel hi, Bool.and_comm]
  · simp [hi]

end Sys2Proof
end

