-- ==== Sys2Proof/Laws/Decoder.lean ====
section
/-! SUPPORT. What tolerance matching says in arithmetic, and everything the walk over the data bits can do: it classifies every bit,
or stops at the first space that is missing or matches neither reference. -/

namespace Sys2Proof.Machine

open Sys2Proof

theorem ticksMatch_iff (p : Config.Params) (t ref tol : Nat) :
    ticksMatch p t ref tol = true ↔ t * p.tickUs ≤ ref + tol ∧ ref ≤ t * p.tickUs + tol := by
  rw [ticksMatch, decide_eq_true_iff, absDiff]
  generalize t * p.tickUs = x
  omega

/-- Bit k's space entry, as the walk reads it. -/
theorem space_index (o k : Nat) : o + 2 + 2 * k + 1 = o + 3 + 2 * k := by omega

/-- The walk answers bits exactly when every space is present and classified, and they are the classifications. -/
theorem decodeBits_ok_iff (s : State) (o n k : Nat) (bits : List Bool) :
    decodeBits s o n k = .ok bits ↔
      bits.length = n ∧ ∀ j < n, o + 3 + 2 * (k + j) < s.rawLen.toNat ∧
        classify s.params (s.rawRead (o + 3 + 2 * (k + j))) = bits[j]? := by
  induction n generalizing k bits with
  | zero =>
    simp only [decodeBits, Except.ok.injEq, Nat.not_lt_zero, false_implies, implies_true, and_true]
    exact ⟨fun h => by simp [← h], fun h => (List.eq_nil_of_length_eq_zero h).symm⟩
  | succ n ih =>
    simp only [decodeBits, space_index]
    by_cases hlen : s.rawLen.toNat ≤ o + 3 + 2 * k
    · simp only [if_pos hlen, reduceCtorEq, false_iff]
      rintro ⟨-, h⟩
      have := (h 0 (by omega)).1
      simp only [Nat.add_zero] at this; omega
    · simp only [if_neg hlen]
      cases hc : classify s.params (s.rawRead (o + 3 + 2 * k)) with
      | none =>
        simp only [reduceCtorEq, false_iff]
        rintro ⟨hl, h⟩
        have := (h 0 (by omega)).2
        simp only [Nat.add_zero, hc] at this
        rw [eq_comm, List.getElem?_eq_none_iff] at this; omega
      | some b =>
        cases bits with
        | nil =>
          refine ⟨fun h => ?_, fun h => absurd h.1 (by simp)⟩
          cases hd : decodeBits s o n (k + 1) <;> simp [hd] at h
        | cons b' bs =>
          have key : (match decodeBits s o n (k + 1) with
              | .ok bs => Except.ok (b :: bs) | .error c => .error c) = .ok (b' :: bs) ↔
              b = b' ∧ decodeBits s o n (k + 1) = .ok bs := by
            cases decodeBits s o n (k + 1) <;> simp
          refine Iff.trans (show _ ↔ _ from key) ?_
          rw [ih]
          constructor
          · rintro ⟨rfl, hl, h⟩
            refine ⟨by simp [hl], fun j hj => ?_⟩
            cases j with
            | zero => exact ⟨by omega, by simpa using hc⟩
            | succ j =>
              have := h j (by omega)
              rw [show k + (j + 1) = k + 1 + j by omega]
              simpa using this
          · rintro ⟨hl, h⟩
            refine ⟨?_, by simpa using hl, fun j hj => ?_⟩
            · have := (h 0 (by omega)).2
              simp only [Nat.add_zero, hc] at this; simpa using this
            · have := h (j + 1) (by omega)
              rw [show k + (j + 1) = k + 1 + j by omega] at this
              simpa using this

/-- The walk fails only with E_SHORT or E_NOMATCH. -/
theorem decodeBits_error (s : State) (o n k : Nat) (c : Code) (h : decodeBits s o n k = .error c) :
    c = .short ∨ c = .noMatch := by
  induction n generalizing k with
  | zero => simp [decodeBits] at h
  | succ n ih =>
    simp only [decodeBits] at h
    split at h
    · simp_all
    · split at h
      · simp_all
      · split at h
        · simp at h
        · next hd => exact ih (k + 1) (by rw [hd]; exact h)

/-- Where the walk has classified m spaces it goes on with the rest. -/
theorem decodeBits_stop (s : State) (o n k m : Nat) (c : Code) (hm : m < n)
    (hpre : ∀ j < m, o + 3 + 2 * (k + j) < s.rawLen.toNat ∧
      (classify s.params (s.rawRead (o + 3 + 2 * (k + j)))).isSome)
    (hstop : decodeBits s o (n - m) (k + m) = .error c) : decodeBits s o n k = .error c := by
  induction m generalizing n k with
  | zero => simpa using hstop
  | succ m ih =>
    obtain ⟨n, rfl⟩ : ∃ n', n = n' + 1 := ⟨n - 1, by omega⟩
    have h0 := hpre 0 (by omega)
    simp only [Nat.add_zero] at h0
    obtain ⟨b, hb⟩ := Option.isSome_iff_exists.mp h0.2
    have hrest : decodeBits s o n (k + 1) = .error c := by
      refine ih n (k + 1) (by omega) (fun j hj => ?_) ?_
      · have := hpre (j + 1) (by omega)
        rwa [show k + (j + 1) = k + 1 + j by omega] at this
      · rw [show n + 1 - (m + 1) = n - m by omega, show k + (m + 1) = k + 1 + m by omega] at hstop
        exact hstop
    simp only [decodeBits, space_index, if_neg (by omega : ¬ s.rawLen.toNat ≤ o + 3 + 2 * k), hb, hrest]

/-- The walk reads nothing but the spaces of its bits that lie in the capture. -/
theorem decodeBits_congr (s s' : State) (o n k : Nat) (hp : s'.params = s.params)
    (hlen : ∀ j < n, s'.rawLen.toNat ≤ o + 3 + 2 * (k + j) ↔ s.rawLen.toNat ≤ o + 3 + 2 * (k + j))
    (hraw : ∀ j < n, o + 3 + 2 * (k + j) < s.rawLen.toNat →
      s'.rawRead (o + 3 + 2 * (k + j)) = s.rawRead (o + 3 + 2 * (k + j))) :
    decodeBits s' o n k = decodeBits s o n k := by
  induction n generalizing k with
  | zero => rfl
  | succ n ih =>
    have h0 := hlen 0 (by omega)
    have r0 := hraw 0 (by omega)
    simp only [Nat.add_zero] at h0 r0
    have hrest : decodeBits s' o n (k + 1) = decodeBits s o n (k + 1) := by
      refine ih (k + 1) (fun j hj => ?_) (fun j hj => ?_)
      · have := hlen (j + 1) (by omega)
        rwa [show k + (j + 1) = k + 1 + j by omega] at this
      · have := hraw (j + 1) (by omega)
        rwa [show k + (j + 1) = k + 1 + j by omega] at this
    simp only [decodeBits, space_index, hp, h0, hrest]
    split
    · rfl
    · next hlt => rw [r0 (Nat.lt_of_not_le hlt)]

/-- DECODE's checks fail only with the four codes of a structural failure (R184). -/
theorem decodeCapture_error (s : State) (nbits o : Nat) (c : Code) (h : decodeCapture s nbits o = .error c) :
    c = .length ∨ c = .short ∨ c = .header ∨ c = .noMatch := by
  unfold decodeCapture at h
  repeat' split at h
  all_goals first
    | (next hd => cases h; have := decodeBits_error s o _ 0 _ hd; tauto)
    | (cases h <;> tauto)

/-- Whether DECODE succeeds, and with which record, depends only on the parameters, RAW_LEN and RAW. -/
theorem decodeCapture_congr (s s' : State) (nbits o : Nat) (hp : s'.params = s.params) (hl : s'.rawLen = s.rawLen)
    (hr : s'.raw = s.raw) (hn : s'.resets = s.resets) : decodeCapture s' nbits o = decodeCapture s nbits o := by
  have hraw : ∀ i, s'.rawRead i = s.rawRead i := fun i => by simp [State.rawRead, hp, hr, hn]
  have hb := decodeBits_congr s s' o Config.frameBits 0 hp (fun j _ => by rw [hl]) (fun j _ _ => hraw _)
  simp only [decodeCapture, hp, hl, hraw, hb]

end Sys2Proof.Machine
end

