-- ==== Sys2Proof/Laws/State.lean ====
section
/-! SUPPORT. One lemma per field per named update of State, true by reflexivity, so that no later proof unfolds a record update;
and what the record-space updates composed of them leave alone. -/

namespace Sys2Proof.Machine

open Sys2Proof

variable (s : State)

/-! ### complete -/

@[simp] theorem complete_params (u : Bool) : (s.complete u).params = s.params := rfl
@[simp] theorem complete_record (u : Bool) : (s.complete u).record = s.record := rfl
@[simp] theorem complete_cand (u : Bool) : (s.complete u).cand = s.cand := rfl
@[simp] theorem complete_candValid (u : Bool) : (s.complete u).candValid = s.candValid := rfl
@[simp] theorem complete_res (u : Bool) : (s.complete u).res = s.res := rfl
@[simp] theorem complete_code (u : Bool) : (s.complete u).code = .ok := rfl
@[simp] theorem complete_unknown (u : Bool) : (s.complete u).unknown = u := rfl
@[simp] theorem complete_ill (u : Bool) : (s.complete u).ill = s.ill := rfl
@[simp] theorem complete_raw (u : Bool) : (s.complete u).raw = s.raw := rfl
@[simp] theorem complete_rawLen (u : Bool) : (s.complete u).rawLen = s.rawLen := rfl
@[simp] theorem complete_txlog (u : Bool) : (s.complete u).txlog = s.txlog := rfl
@[simp] theorem complete_pending (u : Bool) : (s.complete u).pending = s.pending := rfl
@[simp] theorem complete_resets (u : Bool) : (s.complete u).resets = s.resets := rfl

/-! ### withRes -/

@[simp] theorem withRes_params (v : BitVec 16) : (s.withRes v).params = s.params := rfl
@[simp] theorem withRes_record (v : BitVec 16) : (s.withRes v).record = s.record := rfl
@[simp] theorem withRes_cand (v : BitVec 16) : (s.withRes v).cand = s.cand := rfl
@[simp] theorem withRes_candValid (v : BitVec 16) : (s.withRes v).candValid = s.candValid := rfl
@[simp] theorem withRes_res (v : BitVec 16) : (s.withRes v).res = v := rfl
@[simp] theorem withRes_code (v : BitVec 16) : (s.withRes v).code = s.code := rfl
@[simp] theorem withRes_unknown (v : BitVec 16) : (s.withRes v).unknown = s.unknown := rfl
@[simp] theorem withRes_ill (v : BitVec 16) : (s.withRes v).ill = s.ill := rfl
@[simp] theorem withRes_raw (v : BitVec 16) : (s.withRes v).raw = s.raw := rfl
@[simp] theorem withRes_rawLen (v : BitVec 16) : (s.withRes v).rawLen = s.rawLen := rfl
@[simp] theorem withRes_txlog (v : BitVec 16) : (s.withRes v).txlog = s.txlog := rfl
@[simp] theorem withRes_pending (v : BitVec 16) : (s.withRes v).pending = s.pending := rfl
@[simp] theorem withRes_resets (v : BitVec 16) : (s.withRes v).resets = s.resets := rfl

/-! ### raiseFail -/

@[simp] theorem raiseFail_params (c : Code) : (s.raiseFail c).params = s.params := rfl
@[simp] theorem raiseFail_record (c : Code) : (s.raiseFail c).record = s.record := rfl
@[simp] theorem raiseFail_cand (c : Code) : (s.raiseFail c).cand = s.cand := rfl
@[simp] theorem raiseFail_candValid (c : Code) : (s.raiseFail c).candValid = s.candValid := rfl
@[simp] theorem raiseFail_res (c : Code) : (s.raiseFail c).res = s.res := rfl
@[simp] theorem raiseFail_code (c : Code) : (s.raiseFail c).code = c := rfl
@[simp] theorem raiseFail_unknown (c : Code) : (s.raiseFail c).unknown = false := rfl
@[simp] theorem raiseFail_ill (c : Code) : (s.raiseFail c).ill = (s.ill || c.setsIll) := rfl
@[simp] theorem raiseFail_raw (c : Code) : (s.raiseFail c).raw = s.raw := rfl
@[simp] theorem raiseFail_rawLen (c : Code) : (s.raiseFail c).rawLen = s.rawLen := rfl
@[simp] theorem raiseFail_txlog (c : Code) : (s.raiseFail c).txlog = s.txlog := rfl
@[simp] theorem raiseFail_pending (c : Code) : (s.raiseFail c).pending = s.pending := rfl
@[simp] theorem raiseFail_resets (c : Code) : (s.raiseFail c).resets = s.resets := rfl

/-! ### decodeFail -/

@[simp] theorem decodeFail_params (c : Code) : (s.decodeFail c).params = s.params := rfl
@[simp] theorem decodeFail_record (c : Code) : (s.decodeFail c).record = s.record := rfl
@[simp] theorem decodeFail_cand (c : Code) : (s.decodeFail c).cand = s.cand := rfl
@[simp] theorem decodeFail_candValid (c : Code) : (s.decodeFail c).candValid = false := rfl
@[simp] theorem decodeFail_res (c : Code) : (s.decodeFail c).res = s.res := rfl
@[simp] theorem decodeFail_code (c : Code) : (s.decodeFail c).code = c := rfl
@[simp] theorem decodeFail_unknown (c : Code) : (s.decodeFail c).unknown = false := rfl
@[simp] theorem decodeFail_ill (c : Code) : (s.decodeFail c).ill = s.ill := rfl
@[simp] theorem decodeFail_raw (c : Code) : (s.decodeFail c).raw = s.raw := rfl
@[simp] theorem decodeFail_rawLen (c : Code) : (s.decodeFail c).rawLen = s.rawLen := rfl
@[simp] theorem decodeFail_txlog (c : Code) : (s.decodeFail c).txlog = s.txlog := rfl
@[simp] theorem decodeFail_pending (c : Code) : (s.decodeFail c).pending = s.pending := rfl
@[simp] theorem decodeFail_resets (c : Code) : (s.decodeFail c).resets = s.resets := rfl

/-! ### acceptCand -/

@[simp] theorem acceptCand_params (r : Record) : (s.acceptCand r).params = s.params := rfl
@[simp] theorem acceptCand_record (r : Record) : (s.acceptCand r).record = s.record := rfl
@[simp] theorem acceptCand_cand (r : Record) : (s.acceptCand r).cand = r := rfl
@[simp] theorem acceptCand_candValid (r : Record) : (s.acceptCand r).candValid = true := rfl
@[simp] theorem acceptCand_res (r : Record) : (s.acceptCand r).res = s.res := rfl
@[simp] theorem acceptCand_code (r : Record) : (s.acceptCand r).code = s.code := rfl
@[simp] theorem acceptCand_unknown (r : Record) : (s.acceptCand r).unknown = s.unknown := rfl
@[simp] theorem acceptCand_ill (r : Record) : (s.acceptCand r).ill = s.ill := rfl
@[simp] theorem acceptCand_raw (r : Record) : (s.acceptCand r).raw = s.raw := rfl
@[simp] theorem acceptCand_rawLen (r : Record) : (s.acceptCand r).rawLen = s.rawLen := rfl
@[simp] theorem acceptCand_txlog (r : Record) : (s.acceptCand r).txlog = s.txlog := rfl
@[simp] theorem acceptCand_pending (r : Record) : (s.acceptCand r).pending = s.pending := rfl
@[simp] theorem acceptCand_resets (r : Record) : (s.acceptCand r).resets = s.resets := rfl

/-! ### emit -/

@[simp] theorem emit_params (tx : Transmission) : (s.emit tx).params = s.params := rfl
@[simp] theorem emit_record (tx : Transmission) : (s.emit tx).record = s.record := rfl
@[simp] theorem emit_cand (tx : Transmission) : (s.emit tx).cand = s.cand := rfl
@[simp] theorem emit_candValid (tx : Transmission) : (s.emit tx).candValid = s.candValid := rfl
@[simp] theorem emit_res (tx : Transmission) : (s.emit tx).res = s.res := rfl
@[simp] theorem emit_code (tx : Transmission) : (s.emit tx).code = s.code := rfl
@[simp] theorem emit_unknown (tx : Transmission) : (s.emit tx).unknown = s.unknown := rfl
@[simp] theorem emit_ill (tx : Transmission) : (s.emit tx).ill = s.ill := rfl
@[simp] theorem emit_raw (tx : Transmission) : (s.emit tx).raw = s.raw := rfl
@[simp] theorem emit_rawLen (tx : Transmission) : (s.emit tx).rawLen = s.rawLen := rfl
@[simp] theorem emit_txlog (tx : Transmission) : (s.emit tx).txlog = s.txlog ++ [tx] := rfl
@[simp] theorem emit_pending (tx : Transmission) : (s.emit tx).pending = s.pending := rfl
@[simp] theorem emit_resets (tx : Transmission) : (s.emit tx).resets = s.resets := rfl

/-! ### withSel -/

@[simp] theorem withSel_params (q : Sel) (r : Record) : (s.withSel q r).params = s.params := by cases q <;> rfl
@[simp] theorem withSel_candValid (q : Sel) (r : Record) : (s.withSel q r).candValid = s.candValid := by cases q <;> rfl
@[simp] theorem withSel_res (q : Sel) (r : Record) : (s.withSel q r).res = s.res := by cases q <;> rfl
@[simp] theorem withSel_code (q : Sel) (r : Record) : (s.withSel q r).code = s.code := by cases q <;> rfl
@[simp] theorem withSel_unknown (q : Sel) (r : Record) : (s.withSel q r).unknown = s.unknown := by cases q <;> rfl
@[simp] theorem withSel_ill (q : Sel) (r : Record) : (s.withSel q r).ill = s.ill := by cases q <;> rfl
@[simp] theorem withSel_raw (q : Sel) (r : Record) : (s.withSel q r).raw = s.raw := by cases q <;> rfl
@[simp] theorem withSel_rawLen (q : Sel) (r : Record) : (s.withSel q r).rawLen = s.rawLen := by cases q <;> rfl
@[simp] theorem withSel_txlog (q : Sel) (r : Record) : (s.withSel q r).txlog = s.txlog := by cases q <;> rfl
@[simp] theorem withSel_pending (q : Sel) (r : Record) : (s.withSel q r).pending = s.pending := by cases q <;> rfl
@[simp] theorem withSel_resets (q : Sel) (r : Record) : (s.withSel q r).resets = s.resets := by cases q <;> rfl

/-! ### The record space -/

@[simp] theorem withSel_sel_self (q : Sel) (r : Record) : (s.withSel q r).sel q = r := by cases q <;> rfl

theorem withSel_sel_other {q q' : Sel} (h : q' ≠ q) (r : Record) : (s.withSel q r).sel q' = s.sel q' := by
  cases q <;> cases q' <;> first | rfl | exact absurd rfl h

@[simp] theorem withSel_withSel (q : Sel) (r r' : Record) : (s.withSel q r).withSel q r' = s.withSel q r' := by
  cases q <;> rfl

@[simp] theorem withSel_sel (q : Sel) : s.withSel q (s.sel q) = s := by cases q <;> rfl

@[simp] theorem complete_sel (u : Bool) (q : Sel) : (s.complete u).sel q = s.sel q := by cases q <;> rfl
@[simp] theorem withRes_sel (v : BitVec 16) (q : Sel) : (s.withRes v).sel q = s.sel q := by cases q <;> rfl
@[simp] theorem raiseFail_sel (c : Code) (q : Sel) : (s.raiseFail c).sel q = s.sel q := by cases q <;> rfl
@[simp] theorem decodeFail_sel (c : Code) (q : Sel) : (s.decodeFail c).sel q = s.sel q := by cases q <;> rfl
@[simp] theorem emit_sel (tx : Transmission) (q : Sel) : (s.emit tx).sel q = s.sel q := by cases q <;> rfl

@[simp] theorem complete_readable (u : Bool) (q : Sel) : (s.complete u).readable q = s.readable q := by cases q <;> rfl
@[simp] theorem withRes_readable (v : BitVec 16) (q : Sel) : (s.withRes v).readable q = s.readable q := by cases q <;> rfl
@[simp] theorem raiseFail_readable (c : Code) (q : Sel) : (s.raiseFail c).readable q = s.readable q := by cases q <;> rfl
@[simp] theorem emit_readable (tx : Transmission) (q : Sel) : (s.emit tx).readable q = s.readable q := by cases q <;> rfl
@[simp] theorem withSel_readable (q q' : Sel) (r : Record) : (s.withSel q r).readable q' = s.readable q' := by
  cases q <;> cases q' <;> rfl

/-! ### recWrite -/

@[simp] theorem recWrite_params (q : Sel) (i : ByteIx) (v : Byte) : (s.recWrite q i v).params = s.params := by simp [State.recWrite]
@[simp] theorem recWrite_candValid (q : Sel) (i : ByteIx) (v : Byte) : (s.recWrite q i v).candValid = s.candValid := by simp [State.recWrite]
@[simp] theorem recWrite_res (q : Sel) (i : ByteIx) (v : Byte) : (s.recWrite q i v).res = s.res := by simp [State.recWrite]
@[simp] theorem recWrite_code (q : Sel) (i : ByteIx) (v : Byte) : (s.recWrite q i v).code = s.code := by simp [State.recWrite]
@[simp] theorem recWrite_unknown (q : Sel) (i : ByteIx) (v : Byte) : (s.recWrite q i v).unknown = s.unknown := by simp [State.recWrite]
@[simp] theorem recWrite_ill (q : Sel) (i : ByteIx) (v : Byte) : (s.recWrite q i v).ill = s.ill := by simp [State.recWrite]
@[simp] theorem recWrite_raw (q : Sel) (i : ByteIx) (v : Byte) : (s.recWrite q i v).raw = s.raw := by simp [State.recWrite]
@[simp] theorem recWrite_rawLen (q : Sel) (i : ByteIx) (v : Byte) : (s.recWrite q i v).rawLen = s.rawLen := by simp [State.recWrite]
@[simp] theorem recWrite_txlog (q : Sel) (i : ByteIx) (v : Byte) : (s.recWrite q i v).txlog = s.txlog := by simp [State.recWrite]
@[simp] theorem recWrite_pending (q : Sel) (i : ByteIx) (v : Byte) : (s.recWrite q i v).pending = s.pending := by simp [State.recWrite]
@[simp] theorem recWrite_resets (q : Sel) (i : ByteIx) (v : Byte) : (s.recWrite q i v).resets = s.resets := by simp [State.recWrite]
@[simp] theorem recWrite_readable (q : Sel) (i : ByteIx) (v : Byte) (q' : Sel) : (s.recWrite q i v).readable q' = s.readable q' := by simp [State.recWrite]
theorem recWrite_sel_other (q : Sel) (i : ByteIx) (v : Byte) {q' : Sel} (h : q' ≠ q) : (s.recWrite q i v).sel q' = s.sel q' :=
  withSel_sel_other s h _

/-! ### stampRec -/

@[simp] theorem stampRec_params (q : Sel) : (s.stampRec q).params = s.params := by simp [State.stampRec]
@[simp] theorem stampRec_candValid (q : Sel) : (s.stampRec q).candValid = s.candValid := by simp [State.stampRec]
@[simp] theorem stampRec_res (q : Sel) : (s.stampRec q).res = s.res := by simp [State.stampRec]
@[simp] theorem stampRec_code (q : Sel) : (s.stampRec q).code = s.code := by simp [State.stampRec]
@[simp] theorem stampRec_unknown (q : Sel) : (s.stampRec q).unknown = s.unknown := by simp [State.stampRec]
@[simp] theorem stampRec_ill (q : Sel) : (s.stampRec q).ill = s.ill := by simp [State.stampRec]
@[simp] theorem stampRec_raw (q : Sel) : (s.stampRec q).raw = s.raw := by simp [State.stampRec]
@[simp] theorem stampRec_rawLen (q : Sel) : (s.stampRec q).rawLen = s.rawLen := by simp [State.stampRec]
@[simp] theorem stampRec_txlog (q : Sel) : (s.stampRec q).txlog = s.txlog := by simp [State.stampRec]
@[simp] theorem stampRec_pending (q : Sel) : (s.stampRec q).pending = s.pending := by simp [State.stampRec]
@[simp] theorem stampRec_resets (q : Sel) : (s.stampRec q).resets = s.resets := by simp [State.stampRec]
@[simp] theorem stampRec_readable (q : Sel) (q' : Sel) : (s.stampRec q).readable q' = s.readable q' := by simp [State.stampRec]
theorem stampRec_sel_other (q : Sel) {q' : Sel} (h : q' ≠ q) : (s.stampRec q).sel q' = s.sel q' :=
  recWrite_sel_other s q _ _ h

/-! ### bitsWrite -/

@[simp] theorem bitsWrite_params (q : Sel) (i : ByteIx) (a w : Nat) (v : Byte) : (s.bitsWrite q i a w v).params = s.params := by simp [State.bitsWrite]
@[simp] theorem bitsWrite_candValid (q : Sel) (i : ByteIx) (a w : Nat) (v : Byte) : (s.bitsWrite q i a w v).candValid = s.candValid := by simp [State.bitsWrite]
@[simp] theorem bitsWrite_res (q : Sel) (i : ByteIx) (a w : Nat) (v : Byte) : (s.bitsWrite q i a w v).res = s.res := by simp [State.bitsWrite]
@[simp] theorem bitsWrite_code (q : Sel) (i : ByteIx) (a w : Nat) (v : Byte) : (s.bitsWrite q i a w v).code = s.code := by simp [State.bitsWrite]
@[simp] theorem bitsWrite_unknown (q : Sel) (i : ByteIx) (a w : Nat) (v : Byte) : (s.bitsWrite q i a w v).unknown = s.unknown := by simp [State.bitsWrite]
@[simp] theorem bitsWrite_ill (q : Sel) (i : ByteIx) (a w : Nat) (v : Byte) : (s.bitsWrite q i a w v).ill = s.ill := by simp [State.bitsWrite]
@[simp] theorem bitsWrite_raw (q : Sel) (i : ByteIx) (a w : Nat) (v : Byte) : (s.bitsWrite q i a w v).raw = s.raw := by simp [State.bitsWrite]
@[simp] theorem bitsWrite_rawLen (q : Sel) (i : ByteIx) (a w : Nat) (v : Byte) : (s.bitsWrite q i a w v).rawLen = s.rawLen := by simp [State.bitsWrite]
@[simp] theorem bitsWrite_txlog (q : Sel) (i : ByteIx) (a w : Nat) (v : Byte) : (s.bitsWrite q i a w v).txlog = s.txlog := by simp [State.bitsWrite]
@[simp] theorem bitsWrite_pending (q : Sel) (i : ByteIx) (a w : Nat) (v : Byte) : (s.bitsWrite q i a w v).pending = s.pending := by simp [State.bitsWrite]
@[simp] theorem bitsWrite_resets (q : Sel) (i : ByteIx) (a w : Nat) (v : Byte) : (s.bitsWrite q i a w v).resets = s.resets := by simp [State.bitsWrite]
@[simp] theorem bitsWrite_readable (q : Sel) (i : ByteIx) (a w : Nat) (v : Byte) (q' : Sel) : (s.bitsWrite q i a w v).readable q' = s.readable q' := by simp [State.bitsWrite]
theorem bitsWrite_sel_other (q : Sel) (i : ByteIx) (a w : Nat) (v : Byte) {q' : Sel} (h : q' ≠ q) : (s.bitsWrite q i a w v).sel q' = s.sel q' :=
  recWrite_sel_other s q _ _ h

/-! ### The host's next move -/

@[simp] theorem issueNext_pending (w : Word) : (s.issueNext w).pending = .command w :: s.pending := rfl

@[simp] theorem issueNext_drop (w : Word) : ({ s.issueNext w with pending := s.pending } : State) = s := rfl

end Sys2Proof.Machine
end

