-- ==== Sys2Proof/Laws/Ops.lean ====
section
/-! SUPPORT. Everything each shared check can do, said once: it runs the command's own steps or fails with its code. -/

namespace Sys2Proof.Machine

open Sys2Proof

theorem readable_iff (s : State) (q : Sel) : s.readable q = true ↔ (q = .cand → s.candValid = true) := by
  cases q <;> simp [State.readable]

theorem gated_run {q : Sel} {s : State} (h : s.readable q = true) (body : State → State) : gated q body s = body s := by
  simp [gated, h]

theorem gated_fail {q : Sel} {s : State} (h : s.readable q = false) (body : State → State) :
    gated q body s = s.raiseFail .noCand := by
  simp [gated, h]

theorem gated_cases (q : Sel) (body : State → State) (s : State) :
    s.readable q = true ∧ gated q body s = body s ∨ s.readable q = false ∧ gated q body s = s.raiseFail .noCand := by
  cases h : s.readable q
  · exact .inr ⟨rfl, gated_fail h body⟩
  · exact .inl ⟨rfl, gated_run h body⟩

theorem inByte_run {byte : Nat} (h : byte < Config.recLen) (body : ByteIx → State → State) (s : State) :
    inByte byte body s = body ⟨byte, h⟩ s := by
  simp only [inByte, dif_pos h]

theorem inByte_fail {byte : Nat} (h : ¬ byte < Config.recLen) (body : ByteIx → State → State) (s : State) :
    inByte byte body s = s.raiseFail .range := by
  simp only [inByte, dif_neg h]

theorem inByte_cases (byte : Nat) (body : ByteIx → State → State) (s : State) :
    (∃ h : byte < Config.recLen, inByte byte body s = body ⟨byte, h⟩ s) ∨
      ¬ byte < Config.recLen ∧ inByte byte body s = s.raiseFail .range := by
  by_cases h : byte < Config.recLen
  · exact .inl ⟨h, inByte_run h body s⟩
  · exact .inr ⟨h, inByte_fail h body s⟩

theorem fieldInByte_iff (a w : Nat) : fieldInByte a w = true ↔ 1 ≤ w ∧ w ≤ 8 ∧ a + w ≤ 8 := by
  simp [fieldInByte, and_assoc]

theorem inField_run {a w : Nat} (h : fieldInByte a w = true) (byte : Nat) (body : ByteIx → State → State) (s : State) :
    inField byte a w body s = inByte byte body s := by
  simp [inField, h]

theorem inField_cases (byte a w : Nat) (body : ByteIx → State → State) (s : State) :
    (∃ h : byte < Config.recLen, fieldInByte a w = true ∧ inField byte a w body s = body ⟨byte, h⟩ s) ∨
      ¬ (byte < Config.recLen ∧ fieldInByte a w = true) ∧ inField byte a w body s = s.raiseFail .range := by
  cases hf : fieldInByte a w
  · exact .inr ⟨by simp, by simp [inField, hf]⟩
  · rw [inField_run hf]
    rcases inByte_cases byte body s with ⟨h, he⟩ | ⟨h, he⟩
    · exact .inl ⟨h, rfl, he⟩
    · exact .inr ⟨fun hc => h hc.1, he⟩

/-- The byte written, in a record a bit range was written to. -/
theorem bitsWrite_sel_self (s : State) (q : Sel) (i : ByteIx) (a w : Nat) (v : Byte) :
    (s.bitsWrite q i a w v).sel q = (s.sel q).set i (setBitsFn (s.sel q)[i] a w v) := by
  simp [State.bitsWrite, State.recWrite, State.recRead]

theorem stampRec_sel_self (s : State) (q : Sel) :
    (s.stampRec q).sel q = (s.sel q).set 17 (sum8 (s.sel q).toList) := by
  simp [State.stampRec, State.recWrite]

/-- A bit-range write and a stamp change the selected record only. -/
theorem bitsWrite_eq (s : State) (q : Sel) (i : ByteIx) (a w : Nat) (v : Byte) :
    s.bitsWrite q i a w v = s.withSel q ((s.sel q).set i (setBitsFn (s.sel q)[i] a w v)) := rfl

theorem stampRec_eq (s : State) (q : Sel) : s.stampRec q = s.withSel q ((s.sel q).set 17 (sum8 (s.sel q).toList)) := rfl

end Sys2Proof.Machine
end

