-- ==== Sys2Proof/Laws/Record.lean ====
section
/-! SUPPORT. The pure functions on records, each said once: bit ranges in arithmetic, the checksum in arithmetic, wire order, and
byte assembly as the inverse of wire order. -/

namespace Sys2Proof.Machine

open Sys2Proof

/-! ### Bit ranges (R130) -/

theorem fieldMask_toNat : ∀ {w : Nat}, w ≤ 8 → (fieldMask w).toNat = 2 ^ w - 1 := by decide

theorem getLsbD_fieldMask : ∀ {w : Nat}, w ≤ 8 → ∀ b < 8, (fieldMask w).getLsbD b = decide (b < w) := by decide

theorem getBitsFn_toNat (x : Byte) {a w : Nat} (h : w ≤ 8) :
    (getBitsFn x a w).toNat = x.toNat / 2 ^ a % 2 ^ w := by
  simp [getBitsFn, fieldMask_toNat h, Nat.and_two_pow_sub_one_eq_mod, Nat.shiftRight_eq_div_pow]

theorem getLsbD_setBitsFn (x v : Byte) {a w b : Nat} (h : a + w ≤ 8) (hb : b < 8) :
    (setBitsFn x a w v).getLsbD b = if a ≤ b ∧ b < a + w then v.getLsbD (b - a) else x.getLsbD b := by
  have hw : w ≤ 8 := by omega
  have hm : (fieldMask w).getLsbD (b - a) = decide (b - a < w) := getLsbD_fieldMask hw _ (by omega)
  simp only [setBitsFn, BitVec.getLsbD_or, BitVec.getLsbD_and, BitVec.getLsbD_not, BitVec.getLsbD_shiftLeft, hm, hb,
    decide_true, Bool.true_and]
  rcases Nat.lt_or_ge b a with hba | hba
  · have : ¬ (a ≤ b) := by omega
    simp [hba, this]
  · have h1 : ¬ (b < a) := by omega
    by_cases hlt : b < a + w
    · have h2 : b - a < w := by omega
      simp [h1, h2, hba, hlt]
    · have h2 : ¬ (b - a < w) := by omega
      simp [h1, h2, hlt]

/-! ### Checksum (R13) -/

theorem toNat_sum_bytes (l : List Byte) : l.sum.toNat = (l.map BitVec.toNat).sum % 256 := by
  induction l with
  | nil => rfl
  | cons x xs ih => simp [BitVec.toNat_add, ih]

theorem sum8_toNat (r : Record) : (sum8 r.toList).toNat = ((r.toList.take 17).map BitVec.toNat).sum % 256 := by
  rw [sum8, List.dropLast_eq_take, toNat_sum_bytes]
  simp [Config.recLen]

/-- The sum does not look at byte 17. -/
theorem sum8_set_last (r : Record) (v : Byte) : sum8 (r.set 17 v).toList = sum8 r.toList := by
  simp only [sum8, List.dropLast_eq_take, Vector.toList_set, List.length_set, Vector.length_toList]
  rw [List.take_set_of_le]
  simp [Config.recLen]

/-- Stamping a record twice is stamping it once (R144). -/
theorem stamp_stamp (r : Record) :
    (r.set 17 (sum8 r.toList)).set 17 (sum8 (r.set 17 (sum8 r.toList)).toList) = r.set 17 (sum8 r.toList) := by
  rw [sum8_set_last]; simp

theorem isValidFn_record (r : Record) : isValidFn r.toList = decide (r[17] = sum8 r.toList) := by
  have h : r.toList.getLast? = some r[17] := by
    rw [List.getLast?_eq_getElem?]; simp [Config.recLen]
  simp [isValidFn, h, Config.recLen, beq_eq_decide]

/-! ### Wire order (R52) and byte assembly (R166) -/

theorem packByte_byteBits : ∀ b : Byte, packByte (byteBits b) = b := by decide

@[simp] theorem byteBits_length (b : Byte) : (byteBits b).length = 8 := rfl

theorem byteBits_get (b : Byte) : ∀ j < 8, (byteBits b)[j]? = some (b.getLsbD (7 - j)) := by
  intro j hj
  have : j = 0 ∨ j = 1 ∨ j = 2 ∨ j = 3 ∨ j = 4 ∨ j = 5 ∨ j = 6 ∨ j = 7 := by omega
  rcases this with rfl | rfl | rfl | rfl | rfl | rfl | rfl | rfl <;> rfl

theorem flatMap_byteBits_length (l : List Byte) : (l.flatMap byteBits).length = 8 * l.length := by
  induction l with
  | nil => rfl
  | cons x xs ih => simp [List.flatMap_cons, ih]; omega

@[simp] theorem wireBits_length (r : Record) : (wireBits r).length = 144 := by
  rw [wireBits, flatMap_byteBits_length, Vector.length_toList]; rfl

theorem flatMap_byteBits_get (l : List Byte) (k : Nat) (hk : k < 8 * l.length) :
    (l.flatMap byteBits)[k]? = some ((l.getD (k / 8) 0).getLsbD (7 - k % 8)) := by
  induction l generalizing k with
  | nil => simp at hk
  | cons x xs ih =>
    rw [List.flatMap_cons]
    by_cases h : k < 8
    · rw [List.getElem?_append_left (by simpa using h), byteBits_get x k h]
      have h1 : k / 8 = 0 := by omega
      have h2 : k % 8 = k := by omega
      simp [h1, h2]
    · rw [List.getElem?_append_right (by simpa using Nat.le_of_not_lt h), byteBits_length, ih (k - 8) (by simp at hk; omega)]
      have h1 : k / 8 = (k - 8) / 8 + 1 := by omega
      have h2 : k % 8 = (k - 8) % 8 := by omega
      simp [h1, h2]

/-- Data bit k of a record is `Rec[k div 8][7 - (k mod 8)]` (R52). -/
theorem wireBits_get (r : Record) (k : Nat) (hk : k < 144) :
    (wireBits r)[k]? = some ((r.toList.getD (k / 8) 0).getLsbD (7 - k % 8)) :=
  flatMap_byteBits_get r.toList k (by simpa [Config.recLen] using hk)

theorem flatMap_byteBits_chunk (l : List Byte) (i : Nat) (hi : i < l.length) :
    ((l.flatMap byteBits).drop (8 * i)).take 8 = byteBits l[i] := by
  induction l generalizing i with
  | nil => simp at hi
  | cons x xs ih =>
    cases i with
    | zero => simp [List.flatMap_cons, List.take_append]
    | succ i =>
      have h : 8 * (i + 1) = (byteBits x).length + 8 * i := by simp; omega
      rw [List.flatMap_cons, h, List.drop_append, List.drop_eq_nil_of_le (by omega), List.nil_append]
      simpa using ih i (by simpa using hi)

/-- Assembling the wire bits of a record gives the record (R166 is the inverse of R52). -/
theorem recordOfBits_wireBits (r : Record) : recordOfBits (wireBits r) = r := by
  ext i hi : 1
  simp only [recordOfBits, Vector.getElem_ofFn, wireBits]
  rw [flatMap_byteBits_chunk _ i (by simpa using hi), packByte_byteBits]
  simp

/-- A byte's bits, read back from the byte they are packed into. -/
theorem byteBits_packByte : ∀ b0 b1 b2 b3 b4 b5 b6 b7 : Bool,
    byteBits (packByte [b0, b1, b2, b3, b4, b5, b6, b7]) = [b0, b1, b2, b3, b4, b5, b6, b7] := by decide

theorem byteBits_packByte_chunk (l : List Bool) (h : l.length = 8) : byteBits (packByte l) = l := by
  match l, h with
  | [b0, b1, b2, b3, b4, b5, b6, b7], _ => exact byteBits_packByte b0 b1 b2 b3 b4 b5 b6 b7

theorem flatMap_byteBits_ofFn (n : Nat) (bits : List Bool) (h : bits.length = 8 * n) :
    (List.ofFn fun i : Fin n => packByte ((bits.drop (8 * i.val)).take 8)).flatMap byteBits = bits := by
  induction n generalizing bits with
  | zero => simpa using (List.eq_nil_of_length_eq_zero (by simpa using h)).symm
  | succ n ih =>
    have hlen : (bits.take 8).length = 8 := by rw [List.length_take]; omega
    have htail := ih (bits.drop 8) (by rw [List.length_drop]; omega)
    simp only [List.drop_drop] at htail
    rw [List.ofFn_succ, List.flatMap_cons]
    simp only [Fin.val_zero, Nat.mul_zero, List.drop_zero, Fin.val_succ, Nat.mul_add, Nat.mul_one, Nat.add_comm _ 8]
    rw [byteBits_packByte_chunk _ hlen, htail, List.take_append_drop]

/-- The wire bits of an assembled record are the bits it was assembled from. -/
theorem wireBits_recordOfBits (bits : List Bool) (h : bits.length = 144) : wireBits (recordOfBits bits) = bits := by
  rw [wireBits, recordOfBits, Vector.toList_ofFn]
  exact flatMap_byteBits_ofFn 18 bits h

end Sys2Proof.Machine
end

