-- ==== Sys2Proof/Laws/Exec.lean ====
section
/-! SUPPORT. Everything a command can do, said once: `Effect i s t` lists the ways exec can end, with their guards, and every command
ends in one of them. Whole-machine statements are case analyses over it. -/

namespace Sys2Proof.Machine

open Sys2Proof

/-- The ways a command ends (R180, R185). -/
inductive Effect (i : Instr) (s : State) : State → Prop
  /-- An operand is out of range (R79). -/
  | outOfRange (h : ¬ InRange i) : Effect i s (s.raiseFail .range)
  /-- SEL = 1 without a valid candidate (R183). -/
  | gatedOff (h : InRange i) (hq : selOf i = some .cand) (hv : s.candValid = false) : Effect i s (s.raiseFail .noCand)
  /-- A command with a result. -/
  | answered (q : Sel) (v : BitVec 16) (u : Bool) (h : InRange i) (hq : selOf i = some q) (hu : s.readable q = true)
      (hw : WritesRes i) (he : u = true → EnumGetter i) : Effect i s ((s.withRes v).complete u)
  /-- A command that writes the record it selects; all but the raw setters leave it stamped (R101, R142). -/
  | wrote (q : Sel) (r : Record) (h : InRange i) (hq : selOf i = some q) (hu : s.readable q = true)
      (hw : WritesRecord i) (hs : RawSetter i ∨ Stamped r) : Effect i s ((s.withSel q r).complete false)
  /-- ENCODE. -/
  | emitted (q : Sel) (rep : Byte) (hi : i = .encode q rep) (hu : s.readable q = true) :
      Effect i s ((s.emit (transmissionOf s.params (s.sel q) rep)).complete false)
  /-- RESETREC. -/
  | created (hi : i = .resetrec) : Effect i s ((s.withSel .record resetRecord).complete false)
  /-- DECODE accepts a capture (R167). -/
  | decoded (st : Bool) (n o : Nat) (r : Record) (hi : i = .decode st n o) (hd : decodeCapture s n o = .ok r) :
      Effect i s ((s.acceptCand r).complete false)
  /-- DECODE fails (R168). -/
  | undecoded (st : Bool) (n o : Nat) (c : Code) (hi : i = .decode st n o) (hd : decodeCapture s n o = .error c) :
      Effect i s (s.decodeFail c)

/-- The other way round: a record that is not readable is CAND without a valid candidate. -/
theorem not_readable {s : State} {q : Sel} (h : s.readable q = false) : q = .cand ∧ s.candValid = false := by
  cases q <;> simp_all [State.readable]

/-- A record is stamped after its checksum is written to byte 17. -/
theorem stamped_stamp (r : Record) : Stamped (r.set 17 (sum8 r.toList)) := by
  simp [Stamped, sum8_set_last]

/-- The effect of a command that is gated on its record. -/
theorem effect_gated {i : Instr} {s : State} {q : Sel} {body : State → State} (hr : InRange i) (hq : selOf i = some q)
    (h : s.readable q = true → Effect i s (body s)) : Effect i s (gated q body s) := by
  rcases gated_cases q body s with ⟨hc, he⟩ | ⟨hc, he⟩ <;> rw [he]
  · exact h hc
  · obtain ⟨rfl, hv⟩ := not_readable hc
    exact .gatedOff hr hq hv

theorem effect_setNamed {i : Instr} (s : State) (f : Field) (q : Sel) (v : Byte) (hr : InRange i) (hq : selOf i = some q)
    (hw : WritesRecord i) : Effect i s (setNamed f q v s) :=
  effect_gated hr hq fun hu => by
    simp only [stampRec_eq, bitsWrite_eq, withSel_withSel]
    exact .wrote q _ hr hq hu hw (.inr (stamped_stamp _))

theorem effect_getFlag {i : Instr} (s : State) (f : Field) (q : Sel) (hr : InRange i) (hq : selOf i = some q)
    (hw : WritesRes i) : Effect i s (getFlag f q s) :=
  effect_gated hr hq fun hu => .answered q _ _ hr hq hu hw (by simp)

theorem effect_getEnum {i : Instr} (s : State) (f : Field) (l : List Byte) (d : Byte) (q : Sel) (hr : InRange i)
    (hq : selOf i = some q) (hw : WritesRes i) (he : EnumGetter i) : Effect i s (getEnum f l d q s) :=
  effect_gated hr hq fun hu => .answered q _ _ hr hq hu hw fun _ => he

theorem recLen_iff (y : Nat) : y < Config.recLen ↔ y ≤ 17 := by simp only [Config.recLen]; omega

/-- Every command answers a next state, in one of the ways of `Effect`. -/
theorem exec_effect (i : Instr) (s : State) : ∃ t, exec i s = .next t ∧ Effect i s t := by
  cases i with
  | resetrec => exact ⟨_, rfl, .created rfl⟩
  | getbit q y b =>
    refine ⟨_, rfl, ?_⟩
    rcases inByte_cases y (readBits q b 1) s with ⟨h, he⟩ | ⟨h, he⟩ <;> rw [he]
    · have hr : InRange (.getbit q y b) := (recLen_iff y).1 h
      exact effect_gated hr rfl fun hu => .answered q _ _ hr rfl hu trivial (by simp)
    · exact .outOfRange fun hr => h ((recLen_iff y).2 hr)
  | setbit q y b v =>
    refine ⟨_, rfl, ?_⟩
    rcases inByte_cases y (writeBits q b 1 (boolVal v)) s with ⟨h, he⟩ | ⟨h, he⟩ <;> rw [he]
    · have hr : InRange (.setbit q y b v) := (recLen_iff y).1 h
      exact effect_gated hr rfl fun hu => .wrote q _ hr rfl hu trivial (.inl trivial)
    · exact .outOfRange fun hr => h ((recLen_iff y).2 hr)
  | getbits q y a n =>
    refine ⟨_, rfl, ?_⟩
    rcases inField_cases y a n (readBits q a n) s with ⟨h, hf, he⟩ | ⟨h, he⟩ <;> rw [he]
    · have hr : InRange (.getbits q y a n) := ⟨(recLen_iff y).1 h, (fieldInByte_iff a n).1 hf⟩
      exact effect_gated hr rfl fun hu => .answered q _ _ hr rfl hu trivial (by simp)
    · exact .outOfRange fun hr => h ⟨(recLen_iff y).2 hr.1, (fieldInByte_iff a n).2 hr.2⟩
  | setbits q y a n v =>
    refine ⟨_, rfl, ?_⟩
    rcases inField_cases y a n (writeBits q a n v) s with ⟨h, hf, he⟩ | ⟨h, he⟩ <;> rw [he]
    · have hr : InRange (.setbits q y a n v) := ⟨(recLen_iff y).1 h, (fieldInByte_iff a n).1 hf⟩
      exact effect_gated hr rfl fun hu => .wrote q _ hr rfl hu trivial (.inl trivial)
    · exact .outOfRange fun hr => h ⟨(recLen_iff y).2 hr.1, (fieldInByte_iff a n).2 hr.2⟩
  | csum q => exact ⟨_, rfl, effect_gated trivial rfl fun hu => .answered q _ _ trivial rfl hu trivial (by simp)⟩
  | stamp q => exact ⟨_, rfl, effect_gated trivial rfl fun hu => .wrote q _ trivial rfl hu trivial (.inr (stamped_stamp _))⟩
  | isvalid q => exact ⟨_, rfl, effect_gated trivial rfl fun hu => .answered q _ _ trivial rfl hu trivial (by simp)⟩
  | encode q rep => exact ⟨_, rfl, effect_gated trivial rfl fun hu => .emitted q rep rfl hu⟩
  | decode st n o =>
    cases hd : decodeCapture s n o with
    | ok r => exact ⟨_, by simp only [exec, execDecode, hd], .decoded st n o r rfl hd⟩
    | error c => exact ⟨_, by simp only [exec, execDecode, hd], .undecoded st n o c rfl hd⟩
  | setpower q v => exact ⟨_, rfl, effect_setNamed s _ q _ trivial rfl trivial⟩
  | getpower q => exact ⟨_, rfl, effect_getFlag s _ q trivial rfl trivial⟩
  | setmode q v => exact ⟨_, rfl, effect_setNamed s _ q _ trivial rfl trivial⟩
  | getmode q => exact ⟨_, rfl, effect_getEnum s _ _ _ q trivial rfl trivial trivial⟩
  | settemp q v => exact ⟨_, rfl, effect_setNamed s _ q _ trivial rfl trivial⟩
  | gettemp q => exact ⟨_, rfl, effect_gated trivial rfl fun hu => .answered q _ _ trivial rfl hu trivial (by simp)⟩
  | setfan q v => exact ⟨_, rfl, effect_setNamed s _ q _ trivial rfl trivial⟩
  | getfan q => exact ⟨_, rfl, effect_getEnum s _ _ _ q trivial rfl trivial trivial⟩
  | setswing q v => exact ⟨_, rfl, effect_setNamed s _ q _ trivial rfl trivial⟩
  | getswing q => exact ⟨_, rfl, effect_getEnum s _ _ _ q trivial rfl trivial trivial⟩
  | setturbo q v => exact ⟨_, rfl, effect_setNamed s _ q _ trivial rfl trivial⟩
  | getturbo q => exact ⟨_, rfl, effect_getFlag s _ q trivial rfl trivial⟩
  | setlight q v => exact ⟨_, rfl, effect_setNamed s _ q _ trivial rfl trivial⟩
  | getlight q => exact ⟨_, rfl, effect_getFlag s _ q trivial rfl trivial⟩
  | setsleep q v => exact ⟨_, rfl, effect_setNamed s _ q _ trivial rfl trivial⟩
  | getsleep q => exact ⟨_, rfl, effect_getFlag s _ q trivial rfl trivial⟩

/-- Inversion: whatever next state a command answers is one of its effects. -/
theorem effect_of_exec {i : Instr} {s t : State} (h : exec i s = .next t) : Effect i s t := by
  obtain ⟨t', he, hf⟩ := exec_effect i s
  rw [he] at h
  exact (Host.Outcome.next.inj h) ▸ hf

end Sys2Proof.Machine
end

