-- ==== Sys2Proof/Laws/PerInstr.lean ====
section
/-! SUPPORT. One statement about every command as syntax, one lemma a constructor. -/

namespace Sys2Proof.Laws.EncodedOpcode

open Sys2Proof

/-- Of a well-formed command, the operands fit below OP and the word's OP field is the command's opcode (R70, R76). -/
def Statement (i : Instr) : Prop :=
  i.wf = true → i.operands < 2 ^ 26 ∧ opField (encode i) = i.opcode

/-- Operands below OP and an opcode of 6 bits make a word with that OP. -/
theorem of_lt (i : Instr) (ho : i.opcode < 64) (h : i.wf = true → i.operands < 2 ^ 26) : Statement i := by
  intro hw
  refine ⟨h hw, ?_⟩
  have := h hw
  rw [opField_eq, Sys2Proof.encode, BitVec.toNat_ofNat]
  omega

theorem packV_lt (s : Sel) (v : Byte) : packV s v < 2 ^ 26 := by
  have := v.isLt
  cases s <;> simp only [packV, Sel.toBit] <;> omega

theorem packB_lt (s : Sel) {y b n : Nat} (v : Byte) (hy : y < 32) (hb : b < 8) (hn : n < 16) : packB s y b n v < 2 ^ 26 := by
  have := v.isLt
  cases s <;> simp only [packB, Sel.toBit] <;> omega

theorem packD_lt (st : Bool) {n o : Nat} (hn : n < 512) (ho : o < 65536) : packD st n o < 2 ^ 26 := by
  cases st <;> simp only [packD, Bool.toNat] <;> simp only [cond] <;> omega

theorem resetrec : Statement .resetrec := of_lt _ (by decide) fun _ => by decide
theorem getbit (s : Sel) (y b : Nat) : Statement (.getbit s y b) :=
  of_lt _ (by simp [Instr.opcode]) fun h => by
    simp [Instr.wf] at h; exact packB_lt s 0 h.1 h.2 (by decide)
theorem setbit (s : Sel) (y b : Nat) (v : Byte) : Statement (.setbit s y b v) :=
  of_lt _ (by simp [Instr.opcode]) fun h => by
    simp [Instr.wf] at h; exact packB_lt s v h.1 h.2 (by decide)
theorem getbits (s : Sel) (y a n : Nat) : Statement (.getbits s y a n) :=
  of_lt _ (by simp [Instr.opcode]) fun h => by
    simp [Instr.wf] at h; exact packB_lt s 0 h.1.1 h.1.2 h.2
theorem setbits (s : Sel) (y a n : Nat) (v : Byte) : Statement (.setbits s y a n v) :=
  of_lt _ (by simp [Instr.opcode]) fun h => by
    simp [Instr.wf] at h; exact packB_lt s v h.1.1 h.1.2 h.2
theorem csum (s : Sel) : Statement (.csum s) := of_lt _ (by simp [Instr.opcode]) fun _ => packV_lt s 0
theorem stamp (s : Sel) : Statement (.stamp s) := of_lt _ (by simp [Instr.opcode]) fun _ => packV_lt s 0
theorem isvalid (s : Sel) : Statement (.isvalid s) := of_lt _ (by simp [Instr.opcode]) fun _ => packV_lt s 0
theorem encode (s : Sel) (r : Byte) : Statement (.encode s r) := of_lt _ (by simp [Instr.opcode]) fun _ => packV_lt s r
theorem decode (st : Bool) (n o : Nat) : Statement (.decode st n o) :=
  of_lt _ (by simp [Instr.opcode]) fun h => by
    simp [Instr.wf] at h; exact packD_lt st h.1 h.2
theorem setpower (s : Sel) (v : Byte) : Statement (.setpower s v) := of_lt _ (by simp [Instr.opcode]) fun _ => packV_lt s v
theorem getpower (s : Sel) : Statement (.getpower s) := of_lt _ (by simp [Instr.opcode]) fun _ => packV_lt s 0
theorem setmode (s : Sel) (v : Byte) : Statement (.setmode s v) := of_lt _ (by simp [Instr.opcode]) fun _ => packV_lt s v
theorem getmode (s : Sel) : Statement (.getmode s) := of_lt _ (by simp [Instr.opcode]) fun _ => packV_lt s 0
theorem settemp (s : Sel) (v : Byte) : Statement (.settemp s v) := of_lt _ (by simp [Instr.opcode]) fun _ => packV_lt s v
theorem gettemp (s : Sel) : Statement (.gettemp s) := of_lt _ (by simp [Instr.opcode]) fun _ => packV_lt s 0
theorem setfan (s : Sel) (v : Byte) : Statement (.setfan s v) := of_lt _ (by simp [Instr.opcode]) fun _ => packV_lt s v
theorem getfan (s : Sel) : Statement (.getfan s) := of_lt _ (by simp [Instr.opcode]) fun _ => packV_lt s 0
theorem setswing (s : Sel) (v : Byte) : Statement (.setswing s v) := of_lt _ (by simp [Instr.opcode]) fun _ => packV_lt s v
theorem getswing (s : Sel) : Statement (.getswing s) := of_lt _ (by simp [Instr.opcode]) fun _ => packV_lt s 0
theorem setturbo (s : Sel) (v : Byte) : Statement (.setturbo s v) := of_lt _ (by simp [Instr.opcode]) fun _ => packV_lt s v
theorem getturbo (s : Sel) : Statement (.getturbo s) := of_lt _ (by simp [Instr.opcode]) fun _ => packV_lt s 0
theorem setlight (s : Sel) (v : Byte) : Statement (.setlight s v) := of_lt _ (by simp [Instr.opcode]) fun _ => packV_lt s v
theorem getlight (s : Sel) : Statement (.getlight s) := of_lt _ (by simp [Instr.opcode]) fun _ => packV_lt s 0
theorem setsleep (s : Sel) (v : Byte) : Statement (.setsleep s v) := of_lt _ (by simp [Instr.opcode]) fun _ => packV_lt s v
theorem getsleep (s : Sel) : Statement (.getsleep s) := of_lt _ (by simp [Instr.opcode]) fun _ => packV_lt s 0

end Sys2Proof.Laws.EncodedOpcode
end

