-- ==== Sys2Proof/Laws/Raw.lean ====
section
/-! SUPPORT. The raw tick memory: read after write, other entries unchanged, and every write keeps the canonical form and the bounds
of R32. -/

namespace Sys2Proof.Machine

open Sys2Proof

namespace RawMem

theorem find_insert_self (m : RawMem) (i v : Nat) : RawMem.find (RawMem.insert m i v) i = some v := by
  induction m with
  | nil => simp [RawMem.insert, RawMem.find]
  | cons e rest ih =>
    obtain ⟨j, u⟩ := e
    simp only [RawMem.insert]
    split
    · simp [RawMem.find]
    · split
      · simp [RawMem.find]
      · simp_all [RawMem.find]

theorem find_insert_other (m : RawMem) {i j : Nat} (v : Nat) (h : j ≠ i) :
    RawMem.find (RawMem.insert m i v) j = RawMem.find m j := by
  induction m with
  | nil => simp [RawMem.insert, RawMem.find, h]
  | cons e rest ih =>
    obtain ⟨k, u⟩ := e
    simp only [RawMem.insert]
    split
    · simp [RawMem.find, h]
    · split
      · subst_vars; simp [RawMem.find, h]
      · simp [RawMem.find, ih]

theorem above_insert (m : RawMem) {lo i : Nat} (v : Nat) (hm : RawMem.above lo m = true) (hi : lo < i) :
    RawMem.above lo (RawMem.insert m i v) = true := by
  induction m with
  | nil => simpa [RawMem.insert, RawMem.above] using hi
  | cons e rest ih =>
    obtain ⟨j, u⟩ := e
    simp only [RawMem.above, List.all_cons, Bool.and_eq_true, decide_eq_true_eq] at hm ih
    simp only [RawMem.insert]
    split
    · simpa [RawMem.above, hi, hm.1] using hm.2
    · split
      · simpa [RawMem.above, hi] using hm.2
      · simpa [RawMem.above, hm.1] using ih hm.2

theorem above_mono (m : RawMem) {lo hi : Nat} (h : hi ≤ lo) (hm : RawMem.above lo m = true) : RawMem.above hi m = true := by
  simp only [RawMem.above, List.all_eq_true, decide_eq_true_eq] at *
  exact fun e he => Nat.lt_of_le_of_lt h (hm e he)

/-- A write keeps the canonical form. -/
theorem wf_insert (m : RawMem) (i v : Nat) (hm : RawMem.wf m = true) : RawMem.wf (RawMem.insert m i v) = true := by
  induction m with
  | nil => rfl
  | cons e rest ih =>
    obtain ⟨j, u⟩ := e
    simp only [RawMem.wf, Bool.and_eq_true] at hm
    simp only [RawMem.insert]
    split
    · next h =>
      simp only [RawMem.wf, Bool.and_eq_true]
      refine ⟨?_, hm⟩
      have := above_mono rest (Nat.le_of_lt h) hm.1
      simpa [RawMem.above, h] using this
    · next h =>
      split
      · next h' => subst h'; simpa [RawMem.wf] using hm
      · next h' =>
        simp only [RawMem.wf, Bool.and_eq_true]
        exact ⟨above_insert rest v hm.1 (by omega), ih hm.2⟩

/-- A write within RAW_CAP of a value of RAW_W bits keeps the bounds of R32. -/
theorem fits_insert (p : Config.Params) (m : RawMem) {i v : Nat} (hm : RawMem.fits p m = true) (hi : i < p.rawCap)
    (hv : v < 2 ^ p.rawW) : RawMem.fits p (RawMem.insert m i v) = true := by
  induction m with
  | nil => simp [RawMem.insert, RawMem.fits, hi, hv]
  | cons e rest ih =>
    obtain ⟨j, u⟩ := e
    simp only [RawMem.fits, List.all_cons, Bool.and_eq_true, decide_eq_true_eq] at hm ih
    simp only [RawMem.insert]
    split
    · simpa [RawMem.fits, hi, hv, hm.1] using hm.2
    · split
      · simpa [RawMem.fits, hi, hv] using hm.2
      · simpa [RawMem.fits, hm.1] using ih hm.2

end RawMem

end Sys2Proof.Machine
end

