-- ==== Sys2Proof/Laws/Step.lean ====
section
/-! SUPPORT. Everything a step can do, said once: `Moved s t` lists the ways step can end in a next state, with their guards.
Statements about every step are case analyses over it. -/

namespace Sys2Proof.Machine

open Sys2Proof

/-- What no command writes: RAW, RAW_LEN, the parameters and the model's own fields (R56, R203). -/
theorem effect_frame {i : Instr} {s t : State} (h : Effect i s t) :
    t.raw = s.raw ∧ t.rawLen = s.rawLen ∧ t.params = s.params ∧ t.pending = s.pending ∧ t.resets = s.resets := by
  cases h <;> simp

/-- A word issued at CMD runs its command, or fails with E_ILLEGAL (R31, R77). -/
theorem issueCommand_cases (w : Word) (s : State) :
    (∃ i, decode w = .ok i ∧ issueCommand w s = exec i s) ∨
      (∃ e, decode w = .error e ∧ issueCommand w s = .next (s.raiseFail .illegal)) := by
  unfold issueCommand
  cases decode w with
  | ok i => exact .inl ⟨i, rfl, rfl⟩
  | error e => exact .inr ⟨e, rfl, rfl⟩

/-- The ways a step ends in a next state. -/
inductive Moved (s : State) : State → Prop
  /-- No move to come (R194). -/
  | idled (hp : s.pending = []) : Moved s s
  /-- A command. -/
  | ran (w : Word) (rest : List HostMove) (i : Instr) (t : State) (hp : s.pending = .command w :: rest)
      (hd : decode w = .ok i) (he : Effect i { s with pending := rest } t) : Moved s t
  /-- An illegal word (R77). -/
  | illegal (w : Word) (rest : List HostMove) (e : DecodeError) (hp : s.pending = .command w :: rest)
      (hd : decode w = .error e) : Moved s (({ s with pending := rest } : State).raiseFail .illegal)
  /-- A host write of one RAW entry (R67). -/
  | wroteRaw (i v : Nat) (rest : List HostMove) (hp : s.pending = .writeRaw i v :: rest) (hi : i < s.params.rawCap)
      (hv : v < 2 ^ s.params.rawW) : Moved s { s with raw := RawMem.insert s.raw i v, pending := rest }
  /-- A host write of RAW_LEN (R67). -/
  | wroteRawLen (n : BitVec 16) (rest : List HostMove) (hp : s.pending = .writeRawLen n :: rest)
      (hn : n.toNat ≤ s.params.rawCap) : Moved s { s with rawLen := n, pending := rest }
  /-- A read of the ports (R66). -/
  | observed (rest : List HostMove) (hp : s.pending = .observe :: rest) : Moved s { s with pending := rest }
  /-- The reset input (R200). -/
  | wasReset (rest : List HostMove) (hp : s.pending = .reset :: rest) : Moved s (resetEvent { s with pending := rest })

/-- Inversion: whatever next state a step answers is one of these. -/
theorem moved_of_step {s t : State} (h : step s = .next t) : Moved s t := by
  unfold step at h
  split at h
  · next hp => cases h; exact .idled hp
  · next m rest hp =>
    cases m with
    | command w =>
      rcases issueCommand_cases w { s with pending := rest } with ⟨i, hd, he⟩ | ⟨e, hd, he⟩
      · exact .ran w rest i t hp hd (effect_of_exec (he ▸ h))
      · simp only [applyMove, he] at h; cases h; exact .illegal w rest e hp hd
    | writeRaw i v =>
      simp only [applyMove, hostWriteRaw] at h
      split at h
      · cases h
      · split at h
        · cases h
        · cases h; exact .wroteRaw i v rest hp (by simp_all) (by simp_all)
    | writeRawLen n =>
      simp only [applyMove, hostWriteRawLen] at h
      split at h
      · cases h
      · cases h; exact .wroteRawLen n rest hp (by simp_all)
    | observe => cases h; exact .observed rest hp
    | reset => cases h; exact .wasReset rest hp

end Sys2Proof.Machine
end

