-- ==== Sys2Proof/Tests/Slice0.lean ====
section
/-! SUPPORT. Tests of the model and witnesses of the statements. Every expected word, record and STATUS byte is taken from the spec:
the encodings of 30_encoding.md R71 to R76 and R83, and the vectors of 95_test_vectors.md, whose row each test names. The parameter
set PT is that file's. -/

namespace Sys2Proof.Tests

open Sys2Proof Sys2Proof.Machine Sys2Proof.Claims

/-! ### Small states -/

/-- The test parameters PT (95_test_vectors.md 0.1). -/
def paramsPT : Config.Params := ⟨3000, 1500, 500, 1500, 500, 500, 10000, 1, 1, 100, 200, 400, 16, by decide⟩

/-- Reset under PT. -/
def start : State := { State.reset with params := paramsPT }

/-- Reset under PT with another record. -/
def withRecord (r : Record) : State := { start with record := r }

/-- After B5: the reset record with REC[11] = 0x20 and a stale checksum. -/
def afterB5 : State := withRecord (recAtReset.set 11 0x20)

/-- A state with a valid candidate. -/
def withCand : State := { start with cand := recAtReset, candValid := true }

/-- The standard capture `Cap(REC at reset, 20000)` under PT (0.2), with entries replaced. -/
def captured (changed : List (Nat × Nat)) : State :=
  { start with
    raw := changed.foldl (fun m e => RawMem.insert m e.1 e.2)
      ((20000 :: durations (frameOf paramsPT recAtReset)).zipIdx.map fun e => (e.2, e.1))
    rawLen := 293 }

/-- The state after the host issues a word. -/
def issue (w : Word) (s : State) : Option State :=
  match step (s.withFetchWord 32 w.toNat) with
  | .next t => some t
  | .fault _ => none
  | .refused _ => none

/-- What the tests look at: a record, RES, STATUS. -/
def shown (q : Sel) (t : Option State) : Option (Record × BitVec 16 × Byte) :=
  t.map fun t => (t.sel q, t.res, t.statusByte)

/-- RES and STATUS. -/
def answer (t : Option State) : Option (BitVec 16 × Byte) := t.map fun t => (t.res, t.statusByte)

/-! ### Well-formedness: one ill-formed term for each check (R78) -/

theorem test_wf_refuses_byte_32 : (Instr.getbit .record 32 0).wf = false := by decide
theorem test_wf_refuses_bit_8 : (Instr.setbit .record 0 8 1).wf = false := by decide
theorem test_wf_refuses_start_8 : (Instr.getbits .cand 0 8 1).wf = false := by decide
theorem test_wf_refuses_width_16 : (Instr.setbits .cand 0 0 16 1).wf = false := by decide
theorem test_wf_refuses_nbits_512 : (Instr.decode false 512 0).wf = false := by decide
theorem test_wf_refuses_offset_65536 : (Instr.decode true 144 65536).wf = false := by decide
theorem test_wf_accepts_out_of_range_byte_18 : (Instr.getbits .record 18 7 0).wf = true := by decide

/-! ### Decoding: a word written out bit by bit for every command (R71 to R76) -/

theorem test_decode_resetrec :
    decode 0b000001_00000000000000000000000000 = .ok .resetrec := by rfl
theorem test_decode_getbit :
    decode 0b000010_1_0_00101_110_0000_0000_00000000 = .ok (.getbit .cand 5 6) := by rfl
theorem test_decode_setbit :
    decode 0b000011_0_0_10001_011_0000_0000_10000001 = .ok (.setbit .record 17 3 0x81) := by rfl
theorem test_decode_getbits :
    decode 0b000100_0_0_01001_100_0011_0000_00000000 = .ok (.getbits .record 9 4 3) := by rfl
theorem test_decode_setbits :
    decode 0b000101_1_0_01010_001_0110_0000_11000011 = .ok (.setbits .cand 10 1 6 0xC3) := by rfl
theorem test_decode_csum :
    decode 0b001000_1_0000000000000000000000000 = .ok (.csum .cand) := by rfl
theorem test_decode_stamp :
    decode 0b001001_0_0000000000000000000000000 = .ok (.stamp .record) := by rfl
theorem test_decode_isvalid :
    decode 0b001010_1_0000000000000000000000000 = .ok (.isvalid .cand) := by rfl
theorem test_decode_encode :
    decode 0b001100_0_00000000000000000_00000101 = .ok (.encode .record 5) := by rfl
theorem test_decode_decode :
    decode 0b001101_1_010010000_0000000100000011 = .ok (.decode true 144 259) := by rfl
theorem test_decode_setpower :
    decode 0b010000_0_00000000000000000_00000001 = .ok (.setpower .record 1) := by rfl
theorem test_decode_getpower :
    decode 0b010001_0_0000000000000000000000000 = .ok (.getpower .record) := by rfl
theorem test_decode_setmode :
    decode 0b010010_1_00000000000000000_00000101 = .ok (.setmode .cand 5) := by rfl
theorem test_decode_getmode :
    decode 0b010011_1_0000000000000000000000000 = .ok (.getmode .cand) := by rfl
theorem test_decode_settemp :
    decode 0b010100_0_00000000000000000_00011001 = .ok (.settemp .record 25) := by rfl
theorem test_decode_gettemp :
    decode 0b010101_0_0000000000000000000000000 = .ok (.gettemp .record) := by rfl
theorem test_decode_setfan :
    decode 0b010110_0_00000000000000000_00000011 = .ok (.setfan .record 3) := by rfl
theorem test_decode_getfan :
    decode 0b010111_1_0000000000000000000000000 = .ok (.getfan .cand) := by rfl
theorem test_decode_setswing :
    decode 0b011000_0_00000000000000000_00000010 = .ok (.setswing .record 2) := by rfl
theorem test_decode_getswing :
    decode 0b011001_0_0000000000000000000000000 = .ok (.getswing .record) := by rfl
theorem test_decode_setturbo :
    decode 0b011010_1_00000000000000000_11111111 = .ok (.setturbo .cand 255) := by rfl
theorem test_decode_getturbo :
    decode 0b011011_0_0000000000000000000000000 = .ok (.getturbo .record) := by rfl
theorem test_decode_setlight :
    decode 0b011100_0_00000000000000000_00000001 = .ok (.setlight .record 1) := by rfl
theorem test_decode_getlight :
    decode 0b011101_1_0000000000000000000000000 = .ok (.getlight .cand) := by rfl
theorem test_decode_setsleep :
    decode 0b011110_0_00000000000000000_00000001 = .ok (.setsleep .record 1) := by rfl
theorem test_decode_getsleep :
    decode 0b011111_0_0000000000000000000000000 = .ok (.getsleep .record) := by rfl

/-- The host's numbering of a word is the word's own (R31): bit 0 is the least significant. -/
theorem test_decodeTableWord : decodeTableWord 32 0x5000000F = some (.settemp .record 15) := by decide

/-- The illegal words E1 to E7, B22, B23, F30, F31, K12 and X7 decode to nothing. -/
theorem test_illegal_words_decode_to_nothing :
    ([0x00000000, 0x04000001, 0x06000000, 0x18000000, 0x80000000, 0xFC000000, 0x082D0001, 0x082D1000, 0x50000100, 0x44000001,
      0x24000001, 0x30000102].map fun w => decodeTableWord 32 w) = List.replicate 12 none := by decide

/-- The fixed opcode bits of R76 leave no word to two rows. -/
theorem test_opcode_rows_are_apart :
    opcodeTable.Pairwise fun r r' => r.bits &&& r'.mask ≠ r'.bits &&& r.mask := by decide

/-! ### Steps: named fields (95_test_vectors.md 2.1) -/

theorem test_resetrec_F1 :
    shown .record (issue 0x04000000 (withRecord ((recAtReset.set 5 0).set 17 0xFF))) = some (recAtReset, 0, 0x00) := by decide
theorem test_setpower_F2 :
    shown .record (issue 0x40000000 start) =
      some (#v[0x23, 0xCB, 0x26, 1, 0, 0x00, 8, 6, 0x30, 0x45, 0x67, 0, 0, 0, 0, 0, 0, 0xFF], 0, 0x00) := by decide
theorem test_setpower_two_means_on_F4 :
    shown .record (issue 0x40000002 start) = some (recAtReset, 0, 0x00) := by decide
theorem test_getpower_F5 : answer (issue 0x44000000 start) = some (1, 0x00) := by decide
theorem test_getpower_cand_F29 : answer (issue 0x46000000 start) = some (0, 0x83) := by decide
theorem test_setmode_truncates_F8 :
    shown .record (issue 0x48000009 start) =
      some (#v[0x23, 0xCB, 0x26, 1, 0, 0x20, 0x09, 6, 0x30, 0x45, 0x67, 0, 0, 0, 0, 0, 0, 0x20], 0, 0x00) := by decide
theorem test_getmode_F10 : answer (issue 0x4C000000 start) = some (4, 0x10) := by decide
theorem test_getmode_F11 :
    answer (issue 0x4C000000 (withRecord ((recAtReset.set 6 0x0A).set 17 0x21))) = some (2, 0x00) := by decide
theorem test_settemp_below_F13 :
    shown .record (issue 0x50000000 start) =
      some (#v[0x23, 0xCB, 0x26, 1, 0, 0x20, 8, 0x00, 0x30, 0x45, 0x67, 0, 0, 0, 0, 0, 0, 0x19], 0, 0x00) := by decide
theorem test_settemp_32 :
    shown .record (issue 0x50000020 start) =
      some (#v[0x23, 0xCB, 0x26, 1, 0, 0x20, 8, 0x0F, 0x30, 0x45, 0x67, 0, 0, 0, 0, 0, 0, 0x28], 0, 0x00) := by decide
theorem test_gettemp_F15 : answer (issue 0x54000000 start) = some (22, 0x00) := by decide
theorem test_gettemp_not_wrapped_F16 :
    answer (issue 0x54000000 (withRecord (recAtReset.set 7 0xFF))) = some (271, 0x00) := by decide
theorem test_setfan_truncates_F18 :
    shown .record (issue 0x58000012 start) =
      some (#v[0x23, 0xCB, 0x26, 1, 0, 0x20, 8, 6, 0x30, 0x42, 0x67, 0, 0, 0, 0, 0, 0, 0x1C], 0, 0x00) := by decide
theorem test_getfan_F19 : answer (issue 0x5C000000 start) = some (0, 0x10) := by decide
theorem test_setswing_F20 :
    shown .record (issue 0x60000001 start) =
      some (#v[0x23, 0xCB, 0x26, 1, 0, 0x20, 8, 6, 0x30, 0x45, 0x61, 0, 0, 0, 0, 0, 0, 0x19], 0, 0x00) := by decide
theorem test_getswing_F21 : answer (issue 0x64000000 start) = some (0, 0x10) := by decide
theorem test_setturbo_F22 :
    shown .record (issue 0x68000001 start) =
      some (#v[0x23, 0xCB, 0x26, 1, 0, 0x20, 8, 6, 0x30, 0x45, 0x67, 0x20, 0, 0, 0, 0, 0, 0x3F], 0, 0x00) := by decide
theorem test_getturbo_F23 : answer (issue 0x6C000000 start) = some (0, 0x00) := by decide
theorem test_getturbo_F28 : answer (issue 0x6C000000 afterB5) = some (1, 0x00) := by decide
theorem test_setlight_F24 :
    shown .record (issue 0x70000001 start) =
      some (#v[0x23, 0xCB, 0x26, 1, 0, 0x20, 8, 6, 0x30, 0x45, 0x67, 0, 0x20, 0, 0, 0, 0, 0x3F], 0, 0x00) := by decide
theorem test_getlight_F25 : answer (issue 0x74000000 start) = some (0, 0x00) := by decide
theorem test_setsleep_F26 :
    shown .record (issue 0x78000001 start) =
      some (#v[0x23, 0xCB, 0x26, 1, 0, 0x20, 8, 6, 0x30, 0x45, 0x67, 0, 0, 0x20, 0, 0, 0, 0x3F], 0, 0x00) := by decide
theorem test_getsleep_F27 : answer (issue 0x7C000000 start) = some (0, 0x00) := by decide

/-! ### Steps: bit fields and checksum (2.2, 2.3) -/

theorem test_getbit_B3 : answer (issue 0x08070000 start) = some (0, 0x00) := by decide
theorem test_getbit_range_before_gating_B20 : answer (issue 0x0A900000 start) = some (0, 0x82) := by decide
theorem test_setbit_nonzero_sets_B6 :
    shown .record (issue 0x0C5D0080 start) = some (recAtReset.set 11 0x20, 0, 0x00) := by decide
theorem test_setbit_clears_B7 :
    shown .record (issue 0x0C2D0000 start) = some (recAtReset.set 5 0x00, 0, 0x00) := by decide
theorem test_getbits_B9 : answer (issue 0x104C4000 start) = some (4, 0x00) := by decide
theorem test_getbits_across_the_byte_B16 : answer (issue 0x102D4000 start) = some (0, 0x82) := by decide
theorem test_setbits_truncates_B13 :
    shown .record (issue 0x14484012 start) = some (recAtReset.set 9 0x42, 0, 0x00) := by decide
theorem test_setbits_checksum_byte_B14 :
    shown .record (issue 0x14888000 start) = some (recAtReset.set 17 0x00, 0, 0x00) := by decide
theorem test_csum_K4 : answer (issue 0x20000000 afterB5) = some (0x3F, 0x00) := by decide
theorem test_csum_wraps_K10 :
    answer (issue 0x20000000 (withRecord ((Vector.replicate 18 0xFF).set 17 0x1F))) = some (0xEF, 0x00) := by decide
theorem test_stamp_K5 :
    shown .record (issue 0x24000000 afterB5) = some ((recAtReset.set 11 0x20).set 17 0x3F, 0, 0x00) := by decide
theorem test_stamp_reserved_bit_K12 : answer (issue 0x24000001 start) = some (0, 0x81) := by decide
theorem test_isvalid_K2 : answer (issue 0x28000000 start) = some (1, 0x00) := by decide
theorem test_isvalid_K3 : answer (issue 0x28000000 afterB5) = some (0, 0x00) := by decide

/-- ILL stays while a later command completes (2.6). -/
theorem test_ill_is_sticky : answer (issue 0x44000000 { start with code := .illegal, ill := true }) = some (1, 0x80) := by decide

/-! ### Steps: encoder (2.4) -/

/-- X2: the count is raised to MIN_REPEAT, and the frame's spaces of bytes 0 and 1 and its last pairs are as written out there. -/
theorem test_encode_X2 :
    (issue 0x30000000 start).map (fun t => t.txlog.map fun x => (x.carrierHz, x.repeats, x.frame.length)) =
      some [(38000, 1, 146)] ∧
    ((frameOf paramsPT recAtReset).take 17).map Pulse.spaceUs =
      [1500, 500, 500, 1500, 500, 500, 500, 1500, 1500, 1500, 1500, 500, 500, 1500, 500, 1500, 1500] ∧
    (frameOf paramsPT recAtReset).drop 143 = [⟨500, 1500⟩, ⟨500, 1500⟩, ⟨500, 10000⟩] := by decide +kernel

/-- One frame of the reset record lasts 190000 microseconds (2.4). -/
theorem test_frame_time : (transmissionOf paramsPT recAtReset 1).train.sum = 190000 := by decide +kernel

/-! ### Steps: decoder (2.5) -/

theorem test_decode_one_window_D21 :
    shown .cand (issue 0x34900001 (captured [(4, 1700)])) = some (recAtReset.set 0 0xA3, 0, 0x20) := by decide +kernel

/-- D3, D8, D13 and D19: one failure of each code. -/
theorem test_decode_failures :
    answer (issue 0x348F0001 (captured [])) = some (0, 0x04) ∧
    answer (issue 0x34900001 { captured [] with rawLen := 290 }) = some (0, 0x05) ∧
    answer (issue 0x34900001 (captured [(1, 3101)])) = some (0, 0x06) ∧
    answer (issue 0x34900001 (captured [(4, 701)])) = some (0, 0x07) := by decide +kernel

/-! ### Assembler (R81 to R83) -/

theorem test_assemble_record_omitted : assemble "getbit 5, 5" = some [0x082D0000] := by decide +kernel
theorem test_assemble_decode : assemble "decode strict, 144, 1" = some [0x36900001] := by decide +kernel
theorem test_assemble_hex_and_send : assemble "send cand, 0x03" = some [0x26000000, 0x32000003] := by decide +kernel
theorem test_assemble_refuses_wide_operand : assemble "setpower rec, 256" = none := by decide +kernel

/-! ### Witnesses: a state and operands that meet the hypotheses of each statement -/

theorem witness_DecodeOfEncode : (Instr.setbits .cand 31 7 15 255).wf = true ∧ (Instr.decode true 511 65535).wf = true := by
  decide

theorem witness_EncodeOfDecode :
    decode 0x35FFFFFF = .ok (.decode false 511 65535) ∧ decode 0x16FFF0FF = .ok (.setbits .cand 31 7 15 255) := ⟨rfl, rfl⟩

theorem witness_DecodeAgreesWithTheOpcodeMap :
    decode 0x082D0000 = .ok (.getbit .record 5 5) ∧ ⟨"getbit", 0x08000000, 0xFD00FFFF⟩ ∈ opcodeTable ∧
      (⟨"getbit", 0x08000000, 0xFD00FFFF⟩ : OpcodeRow).selects 0x082D0000 = true := ⟨rfl, by decide, by decide⟩

/-- Also of EveryCommandEndsWithACode and of the first clause of StepsTakeTheMovesInOrder, whose hypothesis is the first of these. -/
theorem witness_StepRunsTheDecodedCommand :
    (start.withFetchWord 32 0x44000000).pending = .command 0x44000000 :: [] ∧ decode 0x44000000 = .ok (.getpower .record) :=
  ⟨by decide, rfl⟩

/-- Words of a reserved OP, of a row with one must-be-0 bit set, and the highest word; the second also meets the hypotheses of
RejectedCommandChangesOnlyStatus. -/
theorem witness_IllegalWordChangesOnlyStatus :
    (∀ r ∈ opcodeTable, (0x00000000 : Word) &&& r.mask ≠ r.bits) ∧ (∀ r ∈ opcodeTable, (0x44000001 : Word) &&& r.mask ≠ r.bits) ∧
    (∀ r ∈ opcodeTable, (0xFFFFFFFF : Word) &&& r.mask ≠ r.bits) := by decide

/-- Of StepsTakeTheMovesInOrder, NoStepChangesTheParameters and, with the state good, EveryStepKeepsTheInvariant. -/
theorem witness_EveryStepKeepsTheInvariant :
    start.Inv ∧ ∃ t, step (start.withFetchWord 32 0x30000002) = .next t ∧ t.txlog ≠ [] :=
  ⟨⟨by decide, by decide, by decide, by decide⟩, _, rfl, by decide⟩

/-- The last index and the greatest value. -/
theorem witness_HostWriteOfRawStoresOneEntry : 399 < start.params.rawCap ∧ 65535 < 2 ^ start.params.rawW := by decide

theorem witness_OtherHostMoves : (400 : BitVec 16).toNat ≤ start.params.rawCap ∧ start.pending = [] := by decide

/-- The first index, value and length outside the buffer. -/
theorem witness_HostWritesOutsideTheBuffer :
    start.params.rawCap ≤ 400 ∧ 399 < start.params.rawCap ∧ 2 ^ start.params.rawW ≤ 65536 ∧
      start.params.rawCap < (401 : BitVec 16).toNat := by decide

theorem witness_ResetInput : ∃ t, step { withCand with pending := [.reset], ill := true } = .next t ∧ t.ill = false :=
  ⟨_, rfl, rfl⟩

/-- A named setter, RESETREC, and a command other than a raw setter on a record that is stamped. -/
theorem witness_OnlyRawSettersBreakTheChecksum :
    (∃ t, exec (.setfan .record 2) start = .next t ∧ t.code = .ok) ∧ (∃ t, exec .resetrec afterB5 = .next t) ∧
    (start.sel .record)[17].toNat = byteSum (start.sel .record) ∧ ¬ RawSetter (.setfan .record 2) ∧
      ¬ IsDecode (.setfan .record 2) :=
  ⟨⟨_, rfl, rfl⟩, ⟨_, rfl⟩, by decide, fun h => h, fun h => h⟩

theorem witness_IllIsSticky :
    (∃ t, step (start.withFetchWord 32 0) = .next t ∧ t.rejected) ∧
    (∃ t, step { start with ill := true, pending := [.observe] } = .next t) ∧
    (∃ t, step { start with ill := true, pending := [.reset] } = .next t) :=
  ⟨⟨_, rfl, .inl rfl⟩, ⟨_, rfl⟩, ⟨_, rfl⟩⟩

theorem witness_OnlyEnumGettersSetUnknown : ∃ t, exec (.getfan .record) start = .next t ∧ t.unknown = true := ⟨_, rfl, rfl⟩

theorem witness_OnlyCompletedGettersWriteRes : ∃ t, exec (.getpower .record) start = .next t ∧ t.res ≠ start.res :=
  ⟨_, rfl, by decide⟩

theorem witness_OnlyDecodeWritesCandValid :
    (∃ t, exec (.decode false 0 1) withCand = .next t ∧ IsDecode (.decode false 0 1)) ∧
    (∃ t, exec (.csum .cand) withCand = .next t ∧ ¬ IsDecode (.csum .cand)) ∧
    (∃ t, step { withCand with pending := [.reset] } = .next t) :=
  ⟨⟨_, rfl, trivial⟩, ⟨_, rfl, fun h => h⟩, ⟨_, rfl⟩⟩

theorem witness_OnlyEncodeAppendsToTheLog :
    (∃ t, exec (.encode .record 2) start = .next t ∧ IsEncode (.encode .record 2) ∧ t.code = .ok) ∧
    (∃ t, exec (.encode .cand 2) start = .next t ∧ ¬ (IsEncode (.encode .cand 2) ∧ t.code = .ok)) ∧
    (∃ t, step (start.withFetchWord 32 0x30000102) = .next t ∧
      ∀ w i, (start.withFetchWord 32 0x30000102).pending.head? = some (.command w) → decode w = .ok i → ¬ IsEncode i) ∧
    (∃ t, step { start with pending := [.reset] } = .next t) :=
  ⟨⟨_, rfl, trivial, rfl⟩, ⟨_, rfl, fun h => by cases h.2⟩, ⟨_, rfl, fun w i hw hd => by cases hw; cases hd⟩, ⟨_, rfl⟩⟩

theorem witness_OnlyWritersChangeARecord :
    (∃ t, exec (.setlight .record 1) start = .next t ∧ t.record ≠ start.record) ∧
    (∃ t, exec (.setlight .cand 1) withCand = .next t ∧ t.cand ≠ withCand.cand) :=
  ⟨⟨_, rfl, by decide⟩, ⟨_, rfl, by decide⟩⟩

/-- Of NoCommandWritesTheRawBuffer and NoCommandSeesTheComingMoves. -/
theorem witness_NoCommandWritesTheRawBuffer : ∃ t, exec (.decode true 144 1) { captured [] with rawLen := 290 } = .next t :=
  (Sys2Proof.Machine.exec_effect _ _).imp fun _ h => h.1

theorem witness_RejectedCommandChangesOnlyStatus :
    ∃ t, step (start.withFetchWord 32 0x0A2D0000) = .next t ∧ t.rejected := ⟨_, rfl, .inr (.inr rfl)⟩

theorem witness_DecodeFailure : ∃ t, exec (.decode false 0 1) withCand = .next t ∧ t.decodeFailed := ⟨_, rfl, .inl rfl⟩

theorem witness_NoCommandUsesAnInvalidCandidate :
    selOf (.getbits .cand 17 0 8) = some .cand ∧ start.candValid = false ∧ InRange (.getbits .cand 17 0 8) :=
  ⟨rfl, rfl, by simp [InRange]⟩

/-- The first value outside each bound of R79. -/
theorem witness_OutOfRangeOperandsAreRejected :
    ¬ InRange (.getbit .record 18 0) ∧ ¬ InRange (.setbit .cand 31 7 1) ∧ ¬ InRange (.getbits .record 9 0 0) ∧
      ¬ InRange (.getbits .record 0 0 9) ∧ ¬ InRange (.setbits .record 5 5 4 0) := by simp [InRange]

theorem witness_CheckedCommandsComplete :
    ¬ IsDecode (.setbits .cand 17 7 1 0) ∧ InRange (.setbits .cand 17 7 1 0) ∧
      ∀ q, selOf (.setbits .cand 17 7 1 0) = some q → Usable q withCand :=
  ⟨fun h => h, by simp [InRange], fun _ _ _ => rfl⟩

theorem witness_EveryCommandButEncodeIsIdempotent :
    ¬ IsEncode (.setturbo .record 1) ∧ ∃ t, exec (.setturbo .record 1) start = .next t ∧ t.record ≠ start.record :=
  ⟨fun h => h, _, rfl, by decide⟩

/-- A decode that makes the candidate valid, and a command that leaves it invalid. -/
theorem witness_InvalidCandidateIsUnobservable :
    (captured []).candValid = false ∧ (issue 0x34900001 (captured [])).map State.candValid = some true ∧
      (issue 0x2A000000 start).map State.candValid = some false := by decide +kernel

/-- REC always and CAND while it is valid can be used. Of every statement whose only hypothesis is `Usable`: the flag and
enumeration setters, SETTEMP, the flag getters, GETTEMP, the pseudo-instructions, CSUM, ISVALID, STAMP, ENCODE and `send`. -/
theorem witness_Usable : Usable .record start ∧ Usable .cand withCand := ⟨nofun, fun _ => rfl⟩

/-- A raw value inside and one outside the legal set of each enumeration. -/
theorem witness_EnumGetters :
    Usable .record start ∧ start.record[6].toNat % 2 ^ 3 ∉ [4, 1, 2, 3, 5] ∧ start.record[9].toNat % 2 ^ 4 ∉ [0, 1, 2, 3, 4] ∧
      start.record[10].toNat % 2 ^ 4 ∉ [0, 1, 2, 3, 4] ∧ Usable .record (withRecord (Vector.replicate 18 4)) ∧
      (withRecord (Vector.replicate 18 4)).record[6].toNat % 2 ^ 3 ∈ [4, 1, 2, 3, 5] ∧
      (withRecord (Vector.replicate 18 4)).record[9].toNat % 2 ^ 4 ∈ [0, 1, 2, 3, 4] ∧
      (withRecord (Vector.replicate 18 4)).record[10].toNat % 2 ^ 4 ∈ [0, 1, 2, 3, 4] :=
  ⟨nofun, by decide, by decide, by decide, nofun, by decide, by decide, by decide⟩

/-- The widest and the highest bit range of a byte. Of the bit getters, the raw setters and the helper laws. -/
theorem witness_BitRanges : Usable .cand withCand ∧ 7 < 8 ∧ (1 ≤ 8 ∧ 0 + 8 ≤ 8) ∧ (1 ≤ 1 ∧ 7 + 1 ≤ 8) :=
  ⟨fun _ => rfl, by decide⟩

theorem witness_ChecksumLaws :
    Usable .record afterB5 ∧ (∃ t u, exec (.csum .record) afterB5 = .next t ∧ exec (.stamp .record) t = .next u) ∧
      (16 : ByteIx) ≠ 17 :=
  ⟨nofun, ⟨_, _, rfl, rfl⟩, by decide⟩

theorem witness_TrainLengthAndTime :
    1 = max (0 : Byte).toNat paramsPT.minRepeat ∧
      31 = (recAtReset.toList.map fun b => (List.range 8).countP b.getLsbD).sum := by decide

/-- A capture that ends exactly at the last space the frame needs (D9). -/
theorem witness_DecodeAssemblesTheClassifiedBits :
    1 + 290 ≤ ({ captured [] with rawLen := 291 } : State).rawLen.toNat ∧ HeaderOk { captured [] with rawLen := 291 } 1 ∧
      ∀ k < 144, Classified { captured [] with rawLen := 291 } 1 k := by
  unfold HeaderOk Classified Near; decide +kernel

/-- One state for each clause: D3, D10, D13, a buffer that ends after the header mark, D15, a buffer that ends before the first
space, and D19. -/
theorem witness_DecodeReportsTheFirstFailure :
    143 ≠ 144 ∧ ({ captured [] with rawLen := 5 } : State).rawLen.toNat ≤ 5 ∧
    (1 < (captured [(1, 3101)]).rawLen.toNat ∧
      ¬ Near (captured [(1, 3101)]) 1 paramsPT.hdrMarkUs paramsPT.hdrTolUs) ∧
    (({ captured [] with rawLen := 2 } : State).rawLen.toNat = 1 + 1 ∧
      Near { captured [] with rawLen := 2 } 1 paramsPT.hdrMarkUs paramsPT.hdrTolUs) ∧
    (1 + 1 < (captured [(2, 1399)]).rawLen.toNat ∧ Near (captured [(2, 1399)]) 1 paramsPT.hdrMarkUs paramsPT.hdrTolUs ∧
      ¬ Near (captured [(2, 1399)]) 2 paramsPT.hdrSpaceUs paramsPT.hdrTolUs) ∧
    (HeaderOk { captured [] with rawLen := 4 } 1 ∧ ({ captured [] with rawLen := 4 } : State).rawLen.toNat ≤ spaceIx 1 0) ∧
    (HeaderOk (captured [(4, 299)]) 1 ∧ spaceIx 1 0 < (captured [(4, 299)]).rawLen.toNat ∧
      ¬ Classified (captured [(4, 299)]) 1 0) := by
  unfold HeaderOk Classified Near; decide +kernel

/-- Entries 0 and 291 changed and the buffer cut after entry 290. -/
theorem witness_DecodeReadsOnlyTheFrame :
    min (291 : BitVec 16).toNat (1 + 290) = min (captured []).rawLen.toNat (1 + 290) ∧
      (∀ j < 290, 1 + j < (captured []).rawLen.toNat → ({ captured [] with raw := RawMem.insert (RawMem.insert (captured []).raw 0 7) 291 8 } : State).rawRead
        (1 + j) = (captured []).rawRead (1 + j)) ∧
      ∃ t, exec (.decode false 144 1) (captured []) = .next t := by
  refine ⟨by decide, fun j hj _ => ?_, (Sys2Proof.Machine.exec_effect _ _).imp fun _ h => h.1⟩
  simp only [State.rawRead]
  rw [RawMem.find_insert_other _ _ (by omega), RawMem.find_insert_other _ _ (by omega)]

/-- 1.3: exactly 100 off, and 101 off, on either side. -/
theorem witness_HeaderToleranceIsInclusive :
    1 < (captured [(1, 3100)]).rawLen.toNat ∧
    (captured [(1, 3100)]).rawRead 1 * paramsPT.tickUs = paramsPT.hdrMarkUs + paramsPT.hdrTolUs ∧
    (captured [(1, 2900)]).rawRead 1 * paramsPT.tickUs + paramsPT.hdrTolUs = paramsPT.hdrMarkUs ∧
    (captured [(1, 3101)]).rawRead 1 * paramsPT.tickUs = paramsPT.hdrMarkUs + paramsPT.hdrTolUs + 1 ∧
    (captured [(1, 2899)]).rawRead 1 * paramsPT.tickUs + paramsPT.hdrTolUs + 1 = paramsPT.hdrMarkUs := by
  decide +kernel

/-- A list written entry by entry from index k on reads back as the list. -/
theorem find_zipIdx (l : List Nat) (k i : Nat) :
    RawMem.find ((l.zipIdx k).map fun e => (e.2, e.1)) (k + i) = l[i]? := by
  induction l generalizing k i with
  | nil => rfl
  | cons x xs ih =>
    cases i with
    | zero => simp [List.zipIdx_cons, RawMem.find]
    | succ i => simpa [List.zipIdx_cons, RawMem.find, Nat.add_assoc, Nat.add_comm 1 i] using ih (k + 1) i

theorem captured_durations (j d : Nat) (h : (durations (frameOf paramsPT recAtReset))[j]? = some d) :
    (captured []).rawRead (1 + j) = d := by
  have hf := find_zipIdx (20000 :: durations (frameOf paramsPT recAtReset)) 0 (j + 1)
  rw [List.getElem?_cons_succ, h, Nat.zero_add, Nat.add_comm j 1] at hf
  simp only [State.rawRead, captured, List.foldl_nil, hf]

/-- The exact capture of the reset record; witness_NoiselessRoundTrip meets the hypotheses of the exact-tick clause. -/
theorem witness_DecodeRecoversTheEncodedRecord :
    1 + 290 ≤ (captured []).rawLen.toNat ∧
    (∀ j < 2, ∀ d, (durations (frameOf paramsPT recAtReset))[j]? = some d → Near (captured []) (1 + j) d paramsPT.hdrTolUs) ∧
    (∀ j < 290, 3 ≤ j → j % 2 = 1 → ∀ d, (durations (frameOf paramsPT recAtReset))[j]? = some d →
      Near (captured []) (1 + j) d paramsPT.bitTolUs) ∧
    (∀ k < 144, wireBit recAtReset k = false →
      ¬ Near (captured []) (spaceIx 1 k) paramsPT.oneSpaceUs paramsPT.bitTolUs) := by
  have near_self : ∀ j d tol, (durations (frameOf paramsPT recAtReset))[j]? = some d → Near (captured []) (1 + j) d tol := by
    intro j d tol hd
    have ht : (captured []).params.tickUs = 1 := rfl
    rw [Near, captured_durations j d hd, ht]
    omega
  refine ⟨by decide, fun j _ d => near_self j d _, fun j _ _ _ d => near_self j d _, ?_⟩
  unfold Near; decide +kernel

/-- ENCODE from reset and the capture of what it appends, at one microsecond a tick. -/
theorem witness_NoiselessRoundTrip :
    Usable .record start ∧ (∃ t, exec (.encode .record 1) start = .next t ∧
      t.txlog = start.txlog ++ [⟨38000, 1, frameOf paramsPT recAtReset⟩]) ∧ (captured []).params = start.params ∧
    1 + 290 ≤ (captured []).rawLen.toNat ∧ (∀ d ∈ durations (frameOf paramsPT recAtReset), paramsPT.tickUs ∣ d) ∧
    paramsPT.bitTolUs < (paramsPT.oneSpaceUs - paramsPT.zeroSpaceUs) + (paramsPT.zeroSpaceUs - paramsPT.oneSpaceUs) ∧
    ∀ j < 290, ∀ d, (durations (frameOf paramsPT recAtReset))[j]? = some d →
      (captured []).rawRead (1 + j) = d / paramsPT.tickUs := by
  refine ⟨nofun, ⟨_, rfl, rfl⟩, rfl, by decide, fun d _ => Nat.one_dvd d, by decide, fun j _ d hd => ?_⟩
  exact (captured_durations j d hd).trans (Nat.div_one d).symm

end Sys2Proof.Tests
end

/-! ## Proofs: commands that answer a value, and the checksum commands -/

namespace Sys2Proof.Proofs

open Sys2Proof Sys2Proof.Machine Sys2Proof.Claims

/-- The rule for every gated command with a result (R25, R180, R183): on a usable record it answers what its steps put in RES. -/
theorem answers_of_gated {i : Instr} {q : Sel} {s : State} {body : State → State} {v : Nat} {u : Bool} (hu : Usable q s)
    (hexec : exec i s = .next (gated q body s)) (hbody : body s = (s.withRes (BitVec.ofNat 16 v)).complete u) :
    Answers i s v u := by
  rw [Answers, hexec, gated_run ((readable_iff s q).2 hu), hbody]
  rfl

/-- The model's sum of bytes is the sum the statements speak of (R13). -/
theorem toNat_sum8_eq_byteSum (r : Record) : (sum8 r.toList).toNat = byteSum r := sum8_toNat r

/-- A record passes the check exactly when byte 17 is the sum (R140); its 18 bytes are enough for the check to apply. -/
theorem isValidFn_iff_byteSum (r : Record) : isValidFn r.toList = true ↔ r[17].toNat = byteSum r := by
  rw [isValidFn_record, decide_eq_true_iff, ← BitVec.toNat_inj, toNat_sum8_eq_byteSum]

/-- CSUM answers the sum (R141). -/
theorem csum_answers {q : Sel} {s : State} (hu : Usable q s) : Answers (.csum q) s (byteSum (s.sel q)) false :=
  answers_of_gated hu rfl (by rw [← toNat_sum8_eq_byteSum, BitVec.ofNat_toNat])

/-- ISVALID answers whether byte 17 is the sum (R143). -/
theorem isvalid_answers {q : Sel} {s : State} (hu : Usable q s) :
    Answers (.isvalid q) s (if (s.sel q)[17].toNat = byteSum (s.sel q) then 1 else 0) false :=
  answers_of_gated hu rfl (by simp only [isValidFn_iff_byteSum, apply_ite (BitVec.ofNat 16)]; rfl)

/-- Settles O46: each of the two commands is gated on its record and answers what its steps compute, in the statement's own
sum. -/
theorem checksumCommandsAnswerTheSum : Obligations.ChecksumCommandsAnswerTheSum :=
  fun _ _ hu => ⟨csum_answers hu, isvalid_answers hu⟩

end Sys2Proof.Proofs

/-! ## Proofs: the state of the block over every command and every step -/

namespace Sys2Proof.Proofs

open Sys2Proof Sys2Proof.Machine Sys2Proof.Claims

/-! ### One host move a step -/

/-- A step performs the first coming move. -/
theorem step_of_pending {s : State} {m : HostMove} {rest : List HostMove} (hp : s.pending = m :: rest) :
    step s = applyMove m { s with pending := rest } := by
  simp only [step, hp]

/-- A word that decodes runs its command. -/
theorem issueCommand_of_decode {w : Word} {i : Instr} (hd : decode w = .ok i) (s : State) : issueCommand w s = exec i s := by
  simp only [issueCommand, hd]

/-- Settles O5: the step issues the word, and a word that decodes runs its command. -/
theorem stepRunsTheDecodedCommand : Obligations.StepRunsTheDecodedCommand :=
  fun _ _ _ _ hp hd => (step_of_pending hp).trans (issueCommand_of_decode hd _)

/-- Settles O10: each clause is one failing guard of a host write. -/
theorem hostWritesOutsideTheBufferStop : Obligations.HostWritesOutsideTheBufferStop := by
  refine fun s rest => ⟨fun i v hp hi => ?_, fun i v hp hi hv => ?_, fun n hp hn => ?_⟩ <;> rw [step_of_pending hp]
  · simp only [applyMove, hostWriteRaw, if_pos hi]
  · simp only [applyMove, hostWriteRaw, if_neg (Nat.not_le.2 hi), if_pos hv]
  · simp only [applyMove, hostWriteRawLen, if_pos hn]

/-- A host write that RAW can hold lists its entry (R67). -/
theorem step_writeRaw {s : State} {i v : Nat} {rest : List HostMove} (hp : s.pending = .writeRaw i v :: rest)
    (hi : i < s.params.rawCap) (hv : v < 2 ^ s.params.rawW) :
    step s = .next { s with raw := RawMem.insert s.raw i v, pending := rest } := by
  rw [step_of_pending hp]
  simp only [applyMove, hostWriteRaw, if_neg (Nat.not_le.2 hi), if_neg (Nat.not_le.2 hv)]

/-- Settles O8: a written entry is listed, so it reads as written, and the other entries are listed as before. -/
theorem hostWriteOfRawStoresOneEntry : Obligations.HostWriteOfRawStoresOneEntry := by
  intro s i v rest hp hi hv
  refine ⟨_, step_writeRaw hp hi hv, ?_, fun j hj => ?_, rfl⟩
  · simp only [State.rawRead, RawMem.find_insert_self]
  · simp only [State.rawRead, RawMem.find_insert_other _ _ hj]

/-! ### STATUS -/

theorem toBits_lt_eight (c : Code) : c.toBits.toNat < 8 := by cases c <;> decide

/-- The low four bits of STATUS are the code (R26). -/
theorem statusByte_mod_sixteen (s : State) : s.statusByte.toNat % 16 = s.code.toBits.toNat := by
  have hlow : s.statusByte.setWidth 4 = s.code.toBits := BitVec.setWidth_append_eq_right
  rw [← hlow, BitVec.toNat_setWidth]

/-- Above the code stand the flags (R26). -/
theorem getLsbD_statusByte_above (s : State) (b : Nat) : s.statusByte.getLsbD (b + 4) =
    (BitVec.ofBool s.ill ++ 0#1 ++ BitVec.ofBool s.candValid ++ BitVec.ofBool s.unknown).getLsbD b := by
  rw [State.statusByte, BitVec.getLsbD_append, if_neg (by omega), Nat.add_sub_cancel]

/-- The four flag bits from the lowest up: UNKNOWN, CANDV, 0, ILL. -/
theorem getLsbD_flags : ∀ ill candv unknown : Bool,
    let flags := BitVec.ofBool ill ++ 0#1 ++ BitVec.ofBool candv ++ BitVec.ofBool unknown
    flags.getLsbD 0 = unknown ∧ flags.getLsbD 1 = candv ∧ flags.getLsbD 2 = false ∧ flags.getLsbD 3 = ill := by
  decide

/-- Settles O18: the codes one by one, CODE as the low bits of the byte, and the bits above it as the flags appended to it. -/
theorem statusByteLayout : Obligations.StatusByteLayout := by
  refine ⟨by decide, fun s => ⟨statusByte_mod_sixteen s, toBits_lt_eight s.code, ?_⟩⟩
  have hflags := getLsbD_flags s.ill s.candValid s.unknown
  simpa only [← getLsbD_statusByte_above] using hflags

/-- The codes that set ILL are those of a rejected command (R30). -/
theorem rejected_iff_setsIll (t : State) : t.rejected ↔ t.code.setsIll = true := by
  unfold State.rejected
  cases t.code <;> simp [Code.setsIll]

/-- No failure of DECODE sets ILL (R184). -/
theorem setsIll_of_decodeCapture_error {s : State} {n o : Nat} {c : Code} (h : decodeCapture s n o = .error c) :
    c.setsIll = false := by
  rcases decodeCapture_error s n o c h with rfl | rfl | rfl | rfl <;> rfl

/-- Every command adds to ILL what its code says, and nothing clears it (R30). -/
theorem effect_ill {i : Instr} {s t : State} (h : Effect i s t) : t.ill = (s.ill || t.code.setsIll) := by
  cases h with
  | undecoded st n o c hi hd => simp [setsIll_of_decodeCapture_error hd]
  | _ => simp [Code.setsIll]

/-- A step whose move writes CMD does to ILL what a command does, an illegal word included. -/
theorem moved_command_ill {s t : State} {w : Word} {rest : List HostMove} (h : Moved s t)
    (hp : s.pending = .command w :: rest) : t.ill = (s.ill || t.code.setsIll) := by
  cases h with
  | ran w' rest' i t hp' hd he => simpa using effect_ill he
  | illegal w' rest' e hp' hd => simp
  | idled hp' | wroteRaw _ _ _ hp' | wroteRawLen _ _ hp' | observed _ hp' | wasReset _ hp' => simp [hp] at hp'

/-- Only the reset event can clear ILL. -/
theorem moved_keeps_ill {s t : State} (h : Moved s t) (hill : s.ill = true) (hr : s.pending.head? ≠ some .reset) :
    t.ill = true := by
  cases h with
  | ran w rest i t hp hd he => simp [effect_ill he, hill]
  | illegal w rest e hp hd => simp [hill]
  | wasReset rest hp => simp [hp] at hr
  | idled hp | wroteRaw _ _ _ hp | wroteRawLen _ _ hp | observed _ hp => exact hill

/-- A step whose move is reset is the reset event. -/
theorem eq_resetEvent_of_step {s t : State} {rest : List HostMove} (hp : s.pending = .reset :: rest)
    (h : step s = .next t) : t = resetEvent { s with pending := rest } := by
  rw [step_of_pending hp] at h
  exact (Host.Outcome.next.inj h).symm

/-- Settles O20: by what commands, other moves and reset do to ILL. -/
theorem illIsSticky : Obligations.IllIsSticky := by
  refine ⟨fun s t w rest hp h => ?_, fun s t h => moved_keeps_ill (moved_of_step h), fun s t h hr => ?_⟩
  · rw [moved_command_ill (moved_of_step h) hp, rejected_iff_setsIll, Bool.or_eq_true]
  · obtain ⟨rest, hp⟩ := List.head?_eq_some_iff.1 hr
    rw [eq_resetEvent_of_step hp h]
    rfl

/-- Settles O21: the only effect with UNKNOWN = 1 is an answer of an enumerated getter. -/
theorem onlyEnumGettersSetUnknown : Obligations.OnlyEnumGettersSetUnknown := by
  intro i s t h hu
  cases effect_of_exec h with
  | answered q v u hr hq hread hw he => exact ⟨he hu, rfl⟩
  | _ => cases hu

/-! ### RES and CAND_VALID -/

/-- Settles O22: the only effect that touches RES is an answer. -/
theorem onlyCompletedGettersWriteRes : Obligations.OnlyCompletedGettersWriteRes := by
  intro i s t h hne
  cases effect_of_exec h with
  | answered q v u hr hq hread hw he => exact ⟨hw, rfl⟩
  | _ => simp at hne

/-- No command but DECODE writes CAND_VALID (R24). -/
theorem effect_candValid {i : Instr} {s t : State} (h : Effect i s t) (hi : ¬ IsDecode i) : t.candValid = s.candValid := by
  cases h with
  | decoded st n o r he hd | undecoded st n o c he hd => exact absurd (he ▸ trivial : IsDecode i) hi
  | _ => simp

/-- DECODE accepts a capture or fails with a structural code (R167, R168). -/
theorem exec_decode_cases (st : Bool) (n o : Nat) (s : State) :
    (∃ r, decodeCapture s n o = .ok r ∧ exec (.decode st n o) s = .next ((s.acceptCand r).complete false)) ∨
      ∃ c, decodeCapture s n o = .error c ∧ exec (.decode st n o) s = .next (s.decodeFail c) := by
  cases hd : decodeCapture s n o with
  | ok r => exact .inl ⟨r, rfl, by simp only [exec, execDecode, hd]⟩
  | error c => exact .inr ⟨c, rfl, by simp only [exec, execDecode, hd]⟩

theorem isDecode_iff (i : Instr) : IsDecode i ↔ ∃ st n o, i = .decode st n o := by
  cases i <;> simp [IsDecode]

/-- After DECODE, CAND_VALID says whether it succeeded (R24). -/
theorem decode_candValid_iff {i : Instr} {s t : State} (h : exec i s = .next t) (hi : IsDecode i) :
    t.candValid = true ↔ t.code = .ok := by
  obtain ⟨st, n, o, rfl⟩ := (isDecode_iff i).1 hi
  rcases exec_decode_cases st n o s with ⟨r, hd, he⟩ | ⟨c, hd, he⟩ <;> cases he.symm.trans h
  · simp
  · have hc : c ≠ .ok := by rcases decodeCapture_error s n o c hd with rfl | rfl | rfl | rfl <;> decide
    simp [hc]

/-- Settles O23: DECODE by its two endings, the other commands by `effect_candValid`, reset by its event. -/
theorem onlyDecodeWritesCandValid : Obligations.OnlyDecodeWritesCandValid := by
  refine ⟨fun i s t h => ⟨decode_candValid_iff h, effect_candValid (effect_of_exec h)⟩, fun s t rest hp h => ?_⟩
  rw [eq_resetEvent_of_step hp h]
  rfl

/-! ### TXLOG and the invariant -/

/-- What ENCODE emits has the form of R57: a header, 144 data pairs and a trailer. -/
theorem transmissionOf_wf (p : Config.Params) (r : Record) (rep : Byte) : (transmissionOf p r rep).wf :=
  ⟨rfl, by simp [transmissionOf, frameOf]⟩

/-- ENCODE has no result and writes no record (R25, R154). -/
theorem isEncode_writes_nothing {i : Instr} (h : IsEncode i) : ¬ WritesRes i ∧ ¬ WritesRecord i := by
  cases i <;> simp_all [IsEncode, WritesRes, WritesRecord]

/-- TXLOG after a command: one entry more for an ENCODE that completes, else as before (R33). -/
theorem effect_txlog {i : Instr} {s t : State} (h : Effect i s t) :
    (IsEncode i ∧ t.code = .ok ∧ ∃ tx : Transmission, tx.wf ∧ t.txlog = s.txlog ++ [tx]) ∨
      (¬ (IsEncode i ∧ t.code = .ok) ∧ t.txlog = s.txlog) := by
  cases h with
  | emitted q rep hi hu => exact .inl ⟨hi ▸ trivial, rfl, _, transmissionOf_wf _ _ _, rfl⟩
  | outOfRange | gatedOff => exact .inr ⟨by simp, rfl⟩
  | answered q v u hr hq hu hw => exact .inr ⟨fun ⟨henc, _⟩ => (isEncode_writes_nothing henc).1 hw, rfl⟩
  | wrote q r hr hq hu hw => exact .inr ⟨fun ⟨henc, _⟩ => (isEncode_writes_nothing henc).2 hw, by simp⟩
  | created hi => exact .inr ⟨by simp [hi, IsEncode], by simp⟩
  | decoded st n o r hi | undecoded st n o c hi => exact .inr ⟨by simp [hi, IsEncode], rfl⟩

/-- A step that is neither an ENCODE that completes nor reset leaves TXLOG as it is (R33). -/
theorem moved_keeps_txlog {s t : State} (h : Moved s t) (hr : s.pending.head? ≠ some .reset)
    (hc : ∀ (w : Word) (i : Instr), s.pending.head? = some (.command w) → decode w = .ok i → IsEncode i → t.code ≠ .ok) :
    t.txlog = s.txlog := by
  cases h with
  | ran w rest i t hp hd he =>
    rcases effect_txlog he with ⟨hi, hok, -⟩ | ⟨-, hsame⟩
    · exact absurd hok (hc w i (by simp [hp]) hd hi)
    · exact hsame
  | wasReset rest hp => simp [hp] at hr
  | idled hp | illegal _ _ _ hp | wroteRaw _ _ _ hp | wroteRawLen _ _ hp | observed _ hp => rfl

/-- Settles O24: by what commands, other moves and reset do to TXLOG. -/
theorem onlyEncodeAppendsToTheLog : Obligations.OnlyEncodeAppendsToTheLog := by
  refine ⟨fun i s t h => ?_, fun s t h => moved_keeps_txlog (moved_of_step h), fun s t rest hp h => ?_⟩
  · rcases effect_txlog (effect_of_exec h) with ⟨hi, hok, happ⟩ | ⟨hno, hsame⟩
    · exact ⟨fun _ => happ, fun hno => absurd ⟨hi, hok⟩ hno⟩
    · exact ⟨fun hyes => absurd hyes hno, fun _ => hsame⟩
  · rw [eq_resetEvent_of_step hp h]
    rfl

/-- A state with RAW, RAW_LEN and TXLOG empty is good, whatever its parameters. -/
theorem inv_of_empty {s : State} (hraw : s.raw = []) (hlen : s.rawLen = 0) (hlog : s.txlog = []) : s.Inv where
  rawCanonical := by rw [hraw]; rfl
  rawFits := by rw [hraw]; rfl
  rawLenLe := by rw [hlen]; exact Nat.zero_le _
  txlogWf := by simp [hlog]

/-- Settles O14: the parts the invariant speaks of are empty at reset. -/
theorem invariantAtReset : Obligations.InvariantAtReset := inv_of_empty rfl rfl rfl

/-- A command keeps the invariant: it writes neither RAW nor RAW_LEN, and what it may append to TXLOG has the form of R57. -/
theorem effect_keeps_inv {i : Instr} {s t : State} (h : Effect i s t) (hs : s.Inv) : t.Inv := by
  obtain ⟨hraw, hlen, hparams, -, -⟩ := effect_frame h
  refine ⟨hraw ▸ hs.rawCanonical, by rw [hparams, hraw]; exact hs.rawFits, by rw [hlen, hparams]; exact hs.rawLenLe, ?_⟩
  rcases effect_txlog h with ⟨-, -, tx, hwf, happ⟩ | ⟨-, hsame⟩
  · rw [happ]
    intro tx' hmem
    rcases List.mem_append.1 hmem with hold | hnew
    · exact hs.txlogWf tx' hold
    · exact List.mem_singleton.1 hnew ▸ hwf
  · rw [hsame]
    exact hs.txlogWf

/-- Settles O15, by the ways a step can end: a command keeps the invariant, a host write is within its bound, and reset empties
the parts the invariant speaks of. -/
theorem everyStepKeepsTheInvariant : Obligations.EveryStepKeepsTheInvariant := by
  intro s t hs h
  obtain ⟨hwf, hfits, hlen, hlog⟩ := hs
  cases moved_of_step h with
  | ran w rest i t hp hd he => exact effect_keeps_inv he ⟨hwf, hfits, hlen, hlog⟩
  | wroteRaw i v rest hp hi hv => exact ⟨RawMem.wf_insert _ i v hwf, RawMem.fits_insert _ _ hfits hi hv, hlen, hlog⟩
  | wroteRawLen n rest hp hn => exact ⟨hwf, hfits, hn, hlog⟩
  | wasReset rest hp => exact inv_of_empty rfl rfl rfl
  | idled hp | illegal _ _ _ hp | observed _ hp => exact ⟨hwf, hfits, hlen, hlog⟩

/-! ### The records -/

/-- What a command does to a record: nothing, or one of the completed commands that write it (R54, R66). -/
theorem effect_sel_cases {i : Instr} {s t : State} (h : Effect i s t) (q : Sel) :
    t.sel q = s.sel q ∨ t.code = .ok ∧
      ((WritesRecord i ∧ selOf i = some q ∧ (RawSetter i ∨ Stamped (t.sel q))) ∨
        (i = .resetrec ∧ q = .record ∧ t.sel q = resetRecord) ∨ (IsDecode i ∧ q = .cand)) := by
  cases h with
  | wrote q' r hr hq hu hw hs =>
    by_cases hqq : q = q'
    · subst hqq
      exact .inr ⟨rfl, .inl ⟨hw, hq, by simpa using hs⟩⟩
    · exact .inl (by simp [withSel_sel_other s hqq])
  | created hi =>
    cases q with
    | record => exact .inr ⟨rfl, .inr (.inl ⟨hi, rfl, rfl⟩)⟩
    | cand => exact .inl rfl
  | decoded st n o r hi hd =>
    cases q with
    | record => exact .inl rfl
    | cand => exact .inr ⟨rfl, .inr (.inr ⟨hi ▸ trivial, rfl⟩)⟩
  | _ => exact .inl (by simp)

/-- Settles O25: the cases of `effect_sel_cases` for REC and for CAND. -/
theorem onlyWritersChangeARecord : Obligations.OnlyWritersChangeARecord := by
  intro i s t h
  have hsel := effect_sel_cases (effect_of_exec h)
  constructor
  · intro hne
    rcases hsel .record with hsame | ⟨hok, ⟨hw, hq, -⟩ | ⟨hi, -, -⟩ | ⟨-, hq⟩⟩
    · exact absurd hsame hne
    · exact ⟨hok, .inr ⟨hw, hq⟩⟩
    · exact ⟨hok, .inl hi⟩
    · cases hq
  · intro hne
    rcases hsel .cand with hsame | ⟨hok, ⟨hw, hq, -⟩ | ⟨-, hq, -⟩ | ⟨hi, -⟩⟩
    · exact absurd hsame hne
    · exact ⟨hok, .inr ⟨hw, hq⟩⟩
    · cases hq
    · exact ⟨hok, .inl hi⟩

/-! ### The checksum invariant -/

/-- The model's checksum invariant is the one the statements speak of (R38). -/
theorem stamped_iff_byteSum (r : Record) : Stamped r ↔ r[17].toNat = byteSum r := by
  rw [Stamped, ← BitVec.toNat_inj, toNat_sum8_eq_byteSum]

/-- The reset record is the pattern with its checksum written (R37). -/
theorem stamped_resetRecord : Stamped resetRecord := stamped_stamp resetPattern

/-- A command that writes its record has no result. -/
theorem not_writesRes_of_writesRecord {i : Instr} (h : WritesRecord i) : ¬ WritesRes i := by
  cases i <;> simp_all [WritesRecord, WritesRes]

/-- The named setters and STAMP write their record and are no raw setters. -/
theorem writesRecord_of_stamping {i : Instr} {q : Sel} (h : NamedSetter i ∨ i = .stamp q) :
    WritesRecord i ∧ ¬ RawSetter i := by
  rcases h with h | rfl
  · cases i <;> simp_all [NamedSetter, WritesRecord, RawSetter]
  · simp [WritesRecord, RawSetter]

/-- A writing command other than a raw setter leaves its record stamped when it completes (R101, R142). -/
theorem effect_stamps {i : Instr} {s t : State} {q : Sel} (h : Effect i s t) (hok : t.code = .ok) (hsel : selOf i = some q)
    (hw : WritesRecord i) (hraw : ¬ RawSetter i) : Stamped (t.sel q) := by
  cases h with
  | wrote q' r hr hq hu hw hs =>
    cases hq.symm.trans hsel
    simpa using hs.resolve_left hraw
  | outOfRange | gatedOff => cases hok
  | answered _ _ _ _ _ _ hres => exact absurd hres (not_writesRes_of_writesRecord hw)
  | emitted _ _ hi | created hi | decoded _ _ _ _ hi | undecoded _ _ _ _ hi => simp [hi, WritesRecord] at hw

/-- Settles O17: the stamping commands by `effect_stamps`, RESETREC by its record, and the rest by what each command does to the
record. -/
theorem onlyRawSettersBreakTheChecksum : Obligations.OnlyRawSettersBreakTheChecksum := by
  intro i s t q h
  have he := effect_of_exec h
  simp only [← stamped_iff_byteSum]
  refine ⟨fun hok hsel hset => ?_, ?_, fun hs hnoraw hnodec => ?_⟩
  · obtain ⟨hw, hraw⟩ := writesRecord_of_stamping hset
    exact effect_stamps he hok hsel hw hraw
  · rintro rfl
    cases h
    exact stamped_resetRecord
  · rcases effect_sel_cases he q with hsame | ⟨-, ⟨-, hq, hraw | hst⟩ | ⟨-, -, hreset⟩ | hdec⟩
    · exact hsame ▸ hs
    · exact absurd ⟨hraw, hq⟩ hnoraw
    · exact hst
    · exact hreset ▸ stamped_resetRecord
    · exact absurd hdec hnodec

/-! ### The enumerated getters -/

/-- The value of a field at the bottom of its byte, in arithmetic (R34). -/
theorem fieldRead_toNat {f : Field} {i : ByteIx} {w : Nat} (hpos : f.pos = ⟨i, 0, w⟩) (hw : w ≤ 8) (s : State) (q : Sel) :
    (s.fieldRead q f).toNat = (s.sel q)[i].toNat % 2 ^ w := by
  simp only [State.fieldRead, hpos, State.bitsRead, getBitsFn_toNat _ hw, State.recRead, Nat.pow_zero, Nat.div_one]

/-- The rule for an enumerated getter: the value of its field if that is legal, else the fallback (R41). -/
theorem getsEnum_of_getEnum {instr : Sel → Instr} {f : Field} {i : ByteIx} {w : Nat} {legal : List Byte} {fallback : Byte}
    (hexec : ∀ q s, exec (instr q) s = .next (getEnum f legal fallback q s)) (hpos : f.pos = ⟨i, 0, w⟩) (hw : w ≤ 8) :
    GetsEnum instr i w (legal.map BitVec.toNat) fallback.toNat := by
  intro q s hu
  have hlegal : (s.fieldRead q f).toNat ∈ legal.map BitVec.toNat ↔ s.fieldRead q f ∈ legal :=
    List.mem_map_of_injective fun _ _ => BitVec.eq_of_toNat_eq
  rw [← fieldRead_toNat hpos hw, hlegal]
  refine ⟨fun hmem => ?_, fun hmem => ?_⟩ <;> refine answers_of_gated hu (hexec q s) ?_
  · simp only [enumValue, if_pos hmem, BitVec.ofNat_toNat]
  · simp only [enumValue, if_neg hmem, BitVec.ofNat_toNat]

/-- Settles O40: the rule at each of the three fields. -/
theorem enumGettersFallBackToAuto : Obligations.EnumGettersFallBackToAuto :=
  ⟨getsEnum_of_getEnum (f := .mode) (legal := modeCodes) (fallback := modeFallback) (fun _ _ => rfl) rfl (by decide),
    getsEnum_of_getEnum (f := .fan) (legal := fanCodes) (fallback := fanFallback) (fun _ _ => rfl) rfl (by decide),
    getsEnum_of_getEnum (f := .swing) (legal := swingCodes) (fallback := swingFallback) (fun _ _ => rfl) rfl (by decide)⟩

/-! ### An invalid candidate cannot be seen -/

/-- From the state s, the operation neither looks at CAND nor writes it. -/
def IgnoresCand (s : State) (op : State → State) : Prop :=
  ∀ c : Record, op { s with cand := c } = { op s with cand := c }

/-- Without a valid candidate a gated command ignores CAND, if its own steps do when it works on REC (R183). -/
theorem ignoresCand_gated {s : State} {q : Sel} {body : State → State} (hv : s.candValid = false)
    (hbody : q = .record → IgnoresCand s body) : IgnoresCand s (gated q body) := by
  intro c
  cases q with
  | record => simpa [gated, State.readable] using hbody rfl c
  | cand => simp [gated, State.readable, hv, State.raiseFail]

theorem ignoresCand_inByte {s : State} {y : Nat} {body : ByteIx → State → State} (hbody : ∀ i, IgnoresCand s (body i)) :
    IgnoresCand s (inByte y body) := by
  intro c
  by_cases h : y < Config.recLen
  · simpa only [inByte_run h] using hbody ⟨y, h⟩ c
  · simp only [inByte_fail h, State.raiseFail]

theorem ignoresCand_inField {s : State} {y a w : Nat} {body : ByteIx → State → State} (hbody : ∀ i, IgnoresCand s (body i)) :
    IgnoresCand s (inField y a w body) := by
  cases hf : fieldInByte a w with
  | true =>
    intro c
    simpa only [inField_run hf] using ignoresCand_inByte hbody c
  | false =>
    intro c
    simp [inField, hf, State.raiseFail]

/-- Without a valid candidate every command but DECODE ignores CAND: each is gated on its record, behind its range check where it
has one. -/
theorem exec_ignoresCand {i : Instr} {s : State} (hi : ¬ IsDecode i) (hv : s.candValid = false) :
    ∃ op, (∀ s', exec i s' = .next (op s')) ∧ IgnoresCand s op := by
  cases i with
  | decode st n o => exact absurd trivial hi
  | resetrec => exact ⟨_, fun _ => rfl, fun _ => rfl⟩
  | getbit q y b | setbit q y b v =>
    exact ⟨_, fun _ => rfl, ignoresCand_inByte fun _ => ignoresCand_gated hv (by rintro rfl c; rfl)⟩
  | getbits q y a n | setbits q y a n v =>
    exact ⟨_, fun _ => rfl, ignoresCand_inField fun _ => ignoresCand_gated hv (by rintro rfl c; rfl)⟩
  | csum q | stamp q | isvalid q | encode q v
  | setpower q v | setmode q v | settemp q v | setfan q v | setswing q v | setturbo q v | setlight q v | setsleep q v
  | getpower q | getmode q | gettemp q | getfan q | getswing q | getturbo q | getlight q | getsleep q =>
    exact ⟨_, fun _ => rfl, ignoresCand_gated hv (by rintro rfl c; rfl)⟩

/-- DECODE reads the capture, never CAND, and replaces the whole of CAND when it succeeds (R167, R171). -/
theorem decode_replaces_cand (st : Bool) (n o : Nat) (s : State) (c : Record) :
    (∃ t, exec (.decode st n o) s = .next t ∧ exec (.decode st n o) { s with cand := c } = .next t) ∨
      ∃ t, exec (.decode st n o) s = .next t ∧ t.candValid = false ∧
        exec (.decode st n o) { s with cand := c } = .next { t with cand := c } := by
  have hcap := decodeCapture_congr s { s with cand := c } n o rfl rfl rfl rfl
  rcases exec_decode_cases st n o s with ⟨r, hd, he⟩ | ⟨k, hd, he⟩
  · exact .inl ⟨_, he, by simp only [exec, execDecode, hcap, hd]; rfl⟩
  · exact .inr ⟨_, he, rfl, by simp only [exec, execDecode, hcap, hd]; rfl⟩

/-- Settles O33: every command but DECODE ignores an invalid CAND and leaves it invalid; DECODE makes CAND valid only by replacing
it. -/
theorem invalidCandidateIsUnobservable : Obligations.InvalidCandidateIsUnobservable := by
  intro i s t c hv h
  by_cases hi : IsDecode i
  · obtain ⟨st, n, o, rfl⟩ := (isDecode_iff i).1 hi
    rcases decode_replaces_cand st n o s c with ⟨t', he, he'⟩ | ⟨t', he, hf, he'⟩ <;> cases he.symm.trans h
    · exact ⟨t.cand, he', fun _ => rfl⟩
    · exact ⟨c, he', fun ht => absurd (hf.symm.trans ht) (by decide)⟩
  · have ht : t.candValid = false := (effect_candValid (effect_of_exec h) hi).trans hv
    obtain ⟨op, hexec, hop⟩ := exec_ignoresCand hi hv
    cases (hexec s).symm.trans h
    exact ⟨c, by rw [hexec, hop c], fun ht' => absurd (ht.symm.trans ht') (by decide)⟩

end Sys2Proof.Proofs

/-! ## Proofs: the host's moves, and every command as a function on states -/

namespace Sys2Proof.Proofs

open Sys2Proof Sys2Proof.Machine Sys2Proof.Claims

/-! ### The host's moves -/

/-- After a step the first coming move is gone, whatever it did. -/
theorem moved_pending {s t : State} (h : Moved s t) : t.pending = s.pending.tail := by
  cases h with
  | idled hp => rw [hp]; rfl
  | ran w rest i t hp hd he =>
    obtain ⟨-, -, -, hpending, -⟩ := effect_frame he
    rw [hpending, hp]; rfl
  | illegal _ _ _ hp | wroteRaw _ _ _ hp | wroteRawLen _ _ hp | observed _ hp | wasReset _ hp => rw [hp]; rfl

/-- Settles O7: the definition of a step for the move performed, and the ways a step can end for the moves left. -/
theorem stepsTakeTheMovesInOrder : Obligations.StepsTakeTheMovesInOrder :=
  ⟨fun _ _ _ => step_of_pending, fun _ _ h => moved_pending (moved_of_step h)⟩

/-- A host write of RAW_LEN within RAW_CAP stores it (R67). -/
theorem step_writeRawLen {s : State} {n : BitVec 16} {rest : List HostMove} (hp : s.pending = .writeRawLen n :: rest)
    (hn : n.toNat ≤ s.params.rawCap) : step s = .next { s with rawLen := n, pending := rest } := by
  rw [step_of_pending hp]
  simp only [applyMove, hostWriteRawLen, if_neg (Nat.not_lt.2 hn)]

/-- With no move to come a step holds the state (R194). -/
theorem step_of_no_pending {s : State} (hp : s.pending = []) : step s = .next s := by
  simp only [step, hp, idle]

/-- Settles O9: one rule for each kind of move. -/
theorem otherHostMovesChangeOnlyTheirTarget : Obligations.OtherHostMovesChangeOnlyTheirTarget :=
  fun _ _ => ⟨fun _ => step_writeRawLen, step_of_pending, step_of_no_pending⟩

/-- Settles O26: the frame of every effect. -/
theorem noCommandWritesTheRawBuffer : Obligations.NoCommandWritesTheRawBuffer :=
  fun _ _ _ h => effect_frame (effect_of_exec h)

/-! ### Writing a record twice -/

/-- Writing a bit range twice is writing it once, whatever the range. -/
theorem setBitsFn_setBitsFn (x v : Byte) (a w : Nat) : setBitsFn (setBitsFn x a w v) a w v = setBitsFn x a w v := by
  simp only [setBitsFn]
  generalize fieldMask w <<< a = mask
  generalize (v &&& fieldMask w) <<< a = new
  ext b hb
  simp only [BitVec.getElem_or, BitVec.getElem_and, BitVec.getElem_not]
  cases mask[b] <;> cases new[b] <;> simp

/-- The record with a bit range of one byte written (R130). -/
def setBitsIn (i : ByteIx) (a w : Nat) (v : Byte) (r : Record) : Record := r.set i (setBitsFn r[i] a w v)

/-- The record with its checksum written (R142). -/
def stampOf (r : Record) : Record := r.set 17 (sum8 r.toList)

theorem setBitsIn_setBitsIn (i : ByteIx) (a w : Nat) (v : Byte) (r : Record) :
    setBitsIn i a w v (setBitsIn i a w v r) = setBitsIn i a w v r := by
  simp [setBitsIn, setBitsFn_setBitsFn]

theorem stampOf_stampOf (r : Record) : stampOf (stampOf r) = stampOf r := stamp_stamp r

/-- A stamp keeps a bit range outside byte 17 as it was written. -/
theorem setBitsIn_stampOf {i : ByteIx} {a w : Nat} {v : Byte} {r : Record} (hi : i ≠ 17)
    (h : setBitsIn i a w v r = r) : setBitsIn i a w v (stampOf r) = stampOf r := by
  have hkept : (stampOf r)[i] = r[i] := Vector.getElem_set_ne _ _ fun he => hi (Fin.ext he.symm)
  have hwritten : setBitsFn r[i] a w v = r[i] := by
    have := congrArg (fun r' : Record => r'[i]) h
    simpa [setBitsIn] using this
  rw [setBitsIn, hkept, hwritten, ← hkept]
  exact Vector.set_getElem_self _

/-- Setting a field outside byte 17 and stamping twice is doing it once. -/
theorem stampOf_setBitsIn_idempotent {i : ByteIx} {a w : Nat} {v : Byte} (hi : i ≠ 17) (r : Record) :
    stampOf (setBitsIn i a w v (stampOf (setBitsIn i a w v r))) = stampOf (setBitsIn i a w v r) := by
  rw [setBitsIn_stampOf hi (setBitsIn_setBitsIn i a w v r), stampOf_stampOf]

/-! ### Commands as functions on states -/

/-- The functions on states that the commands other than DECODE are: what a command answers, writes or emits depends only on the
record it selects (for ENCODE also on the parameters), and what it writes it would not write differently a second time. -/
inductive ActsAs (i : Instr) : (State → State) → Prop
  /-- An operand is out of range, whatever the state is (R79). -/
  | outOfRange : ActsAs i (State.raiseFail .range)
  /-- A command with a result (R25). -/
  | answers (q : Sel) (v : Record → BitVec 16) (u : Record → Bool) :
      ActsAs i (gated q fun s => (s.withRes (v (s.sel q))).complete (u (s.sel q)))
  /-- A command that writes the record it selects (R54). -/
  | writes (q : Sel) (f : Record → Record) (hf : ∀ r, f (f r) = f r) :
      ActsAs i (gated q fun s => (s.withSel q (f (s.sel q))).complete false)
  /-- ENCODE (R151). -/
  | emits (he : IsEncode i) (q : Sel) (rep : Byte) :
      ActsAs i (gated q fun s => (s.emit (transmissionOf s.params (s.sel q) rep)).complete false)

/-- A range check depends on the operand alone, so it makes one function of its command or another. -/
theorem actsAs_inByte {i : Instr} {y : Nat} {body : ByteIx → State → State} (h : ∀ j, ActsAs i (body j)) :
    ActsAs i (inByte y body) := by
  by_cases hy : y < Config.recLen
  · rw [funext fun s => inByte_run hy body s]
    exact h ⟨y, hy⟩
  · rw [funext fun s => inByte_fail hy body s]
    exact .outOfRange

theorem actsAs_inField {i : Instr} {y a w : Nat} {body : ByteIx → State → State} (h : ∀ j, ActsAs i (body j)) :
    ActsAs i (inField y a w body) := by
  cases hf : fieldInByte a w with
  | true =>
    rw [funext fun s => inField_run hf y body s]
    exact actsAs_inByte h
  | false =>
    have hfail : inField y a w body = State.raiseFail .range := by funext s; simp [inField, hf]
    rw [hfail]
    exact .outOfRange

theorem actsAs_readBits {i : Instr} (q : Sel) (a w : Nat) (j : ByteIx) : ActsAs i (readBits q a w j) :=
  .answers q (fun r => (getBitsFn r[j] a w).setWidth 16) fun _ => false

theorem actsAs_writeBits {i : Instr} (q : Sel) (a w : Nat) (v : Byte) (j : ByteIx) : ActsAs i (writeBits q a w v j) :=
  .writes q (setBitsIn j a w v) (setBitsIn_setBitsIn j a w v)

theorem actsAs_getFlag {i : Instr} (f : Field) (q : Sel) : ActsAs i (getFlag f q) :=
  actsAs_readBits q f.pos.start f.pos.width f.pos.byte

theorem actsAs_getEnum {i : Instr} (f : Field) (legal : List Byte) (fallback : Byte) (q : Sel) :
    ActsAs i (getEnum f legal fallback q) :=
  .answers q (fun r => (enumValue legal fallback (getBitsFn r[f.pos.byte] f.pos.start f.pos.width)).1.setWidth 16)
    fun r => (enumValue legal fallback (getBitsFn r[f.pos.byte] f.pos.start f.pos.width)).2

theorem setNamed_eq (f : Field) (q : Sel) (v : Byte) : setNamed f q v = gated q fun s =>
    (s.withSel q (stampOf (setBitsIn f.pos.byte f.pos.start f.pos.width v (s.sel q)))).complete false := by
  simp only [setNamed, stampRec_eq, bitsWrite_eq, withSel_withSel, withSel_sel_self]
  rfl

theorem actsAs_setNamed {i : Instr} {f : Field} (q : Sel) (v : Byte) (hf : f.pos.byte ≠ 17) :
    ActsAs i (setNamed f q v) := by
  rw [setNamed_eq]
  exact .writes q (fun r => stampOf (setBitsIn f.pos.byte f.pos.start f.pos.width v r)) (stampOf_setBitsIn_idempotent hf)

/-- Every command but DECODE is one of these functions. -/
theorem exec_actsAs {i : Instr} (hi : ¬ IsDecode i) : ∃ op, ActsAs i op ∧ ∀ s, exec i s = .next (op s) := by
  cases i with
  | decode st n o => exact absurd trivial hi
  | resetrec => exact ⟨_, .writes .record (fun _ => resetRecord) (fun _ => rfl), fun _ => rfl⟩
  | getbit q y b => exact ⟨_, actsAs_inByte (actsAs_readBits q b 1), fun _ => rfl⟩
  | setbit q y b v => exact ⟨_, actsAs_inByte (actsAs_writeBits q b 1 (boolVal v)), fun _ => rfl⟩
  | getbits q y a n => exact ⟨_, actsAs_inField (actsAs_readBits q a n), fun _ => rfl⟩
  | setbits q y a n v => exact ⟨_, actsAs_inField (actsAs_writeBits q a n v), fun _ => rfl⟩
  | csum q => exact ⟨_, .answers q (fun r => (sum8 r.toList).setWidth 16) (fun _ => false), fun _ => rfl⟩
  | stamp q => exact ⟨_, .writes q stampOf stampOf_stampOf, fun _ => rfl⟩
  | isvalid q => exact ⟨_, .answers q (fun r => if isValidFn r.toList then 1 else 0) (fun _ => false), fun _ => rfl⟩
  | encode q rep => exact ⟨_, .emits (show IsEncode (.encode q rep) from trivial) q rep, fun _ => rfl⟩
  | gettemp q =>
    exact ⟨_, .answers q (fun r => (getBitsFn r[(7 : ByteIx)] 0 8).setWidth 16 + 16) (fun _ => false), fun _ => rfl⟩
  | getmode q | getfan q | getswing q => exact ⟨_, actsAs_getEnum _ _ _ q, fun _ => rfl⟩
  | getpower q | getturbo q | getlight q | getsleep q => exact ⟨_, actsAs_getFlag _ q, fun _ => rfl⟩
  | setpower q v | setmode q v | settemp q v | setfan q v | setswing q v | setturbo q v | setlight q v | setsleep q v =>
    exact ⟨_, actsAs_setNamed q _ (by decide), fun _ => rfl⟩

/-- DECODE on a state whose capture it accepts (R167). -/
theorem exec_decode_of_ok {s : State} {n o : Nat} {r : Record} (st : Bool) (hd : decodeCapture s n o = .ok r) :
    exec (.decode st n o) s = .next ((s.acceptCand r).complete false) := by
  simp only [exec, execDecode, hd]

/-- DECODE on a state whose capture it does not accept (R168). -/
theorem exec_decode_of_error {s : State} {n o : Nat} {c : Code} (st : Bool) (hd : decodeCapture s n o = .error c) :
    exec (.decode st n o) s = .next (s.decodeFail c) := by
  simp only [exec, execDecode, hd]

/-! ### Repeating a command -/

/-- A command that failed its range check or its gate fails the same way again (R182). -/
theorem raiseFail_raiseFail (c : Code) (s : State) : (s.raiseFail c).raiseFail c = s.raiseFail c := by
  simp only [State.raiseFail, Bool.or_assoc, Bool.or_self]

/-- Repeating a gated command changes nothing more, if its own steps leave its record readable and change nothing more. -/
theorem gated_gated {q : Sel} {body : State → State} (hread : ∀ s, (body s).readable q = s.readable q)
    (hbody : ∀ s, body (body s) = body s) (s : State) : gated q body (gated q body s) = gated q body s := by
  rcases gated_cases q body s with ⟨hr, he⟩ | ⟨hr, he⟩ <;> rw [he]
  · rw [gated_run ((hread s).trans hr), hbody]
  · rw [gated_fail (by rwa [raiseFail_readable]), raiseFail_raiseFail]

/-- Every command but ENCODE and DECODE changes nothing more when repeated: an answer is not computed from RES or STATUS, and a
write to a record settles it. -/
theorem actsAs_idempotent {i : Instr} {op : State → State} (h : ActsAs i op) (hi : ¬ IsEncode i) (s : State) :
    op (op s) = op s := by
  cases h with
  | outOfRange => exact raiseFail_raiseFail .range s
  | answers q v u =>
    exact gated_gated (by simp) (fun s => by simp only [complete_sel, withRes_sel]; rfl) s
  | writes q f hf =>
    refine gated_gated (by simp) (fun s => ?_) s
    simp only [complete_sel, withSel_sel_self, hf]
    cases q <;> rfl
  | emits he => exact absurd he hi

/-- DECODE reads nothing that it writes (R171). -/
theorem decode_idempotent {st : Bool} {n o : Nat} {s t : State} (h : exec (.decode st n o) s = .next t) :
    exec (.decode st n o) t = .next t := by
  obtain ⟨hraw, hlen, hparams, -, hresets⟩ := effect_frame (effect_of_exec h)
  have hcap := decodeCapture_congr s t n o hparams hlen hraw hresets
  rcases exec_decode_cases st n o s with ⟨r, hd, he⟩ | ⟨c, hd, he⟩ <;> cases he.symm.trans h
  · exact exec_decode_of_ok st (hcap.trans hd)
  · exact exec_decode_of_error st (hcap.trans hd)

/-- Settles O32: DECODE reads nothing that it writes, and every other command but ENCODE is an idempotent function on states. -/
theorem everyCommandButEncodeIsIdempotent : Obligations.EveryCommandButEncodeIsIdempotent := by
  intro i s t henc h
  by_cases hi : IsDecode i
  · obtain ⟨st, n, o, rfl⟩ := (isDecode_iff i).1 hi
    exact decode_idempotent h
  · obtain ⟨op, hop, hexec⟩ := exec_actsAs hi
    cases (hexec s).symm.trans h
    rw [hexec, actsAs_idempotent hop henc]

/-! ### The coming moves cannot be seen -/

/-- A gated command does not see the coming moves if its own steps do not. -/
theorem gated_pending {q : Sel} {body : State → State} (ms : List HostMove)
    (hbody : ∀ s, body { s with pending := ms } = { body s with pending := ms }) (s : State) :
    gated q body { s with pending := ms } = { gated q body s with pending := ms } := by
  have hread : ({ s with pending := ms } : State).readable q = s.readable q := by cases q <;> rfl
  rcases gated_cases q body s with ⟨hr, he⟩ | ⟨hr, he⟩ <;> rw [he]
  · rw [gated_run (hread.trans hr), hbody]
  · rw [gated_fail (hread.trans hr)]
    rfl

theorem actsAs_pending {i : Instr} {op : State → State} (h : ActsAs i op) (s : State) (ms : List HostMove) :
    op { s with pending := ms } = { op s with pending := ms } := by
  cases h with
  | outOfRange => rfl
  | answers q v u | writes q f hf | emits he q rep => exact gated_pending ms (fun s => by cases q <;> rfl) s

/-- DECODE reads the capture, never the coming moves (R171). -/
theorem decode_pending {st : Bool} {n o : Nat} {s t : State} (ms : List HostMove)
    (h : exec (.decode st n o) s = .next t) :
    exec (.decode st n o) { s with pending := ms } = .next { t with pending := ms } := by
  have hcap := decodeCapture_congr s { s with pending := ms } n o rfl rfl rfl rfl
  rcases exec_decode_cases st n o s with ⟨r, hd, he⟩ | ⟨c, hd, he⟩ <;> cases he.symm.trans h
  · exact exec_decode_of_ok st (hcap.trans hd)
  · exact exec_decode_of_error st (hcap.trans hd)

/-- Settles O34: the functions on states that the commands are do not look at the coming moves. -/
theorem noCommandSeesTheComingMoves : Obligations.NoCommandSeesTheComingMoves := by
  intro i s t ms h
  by_cases hi : IsDecode i
  · obtain ⟨st, n, o, rfl⟩ := (isDecode_iff i).1 hi
    exact decode_pending ms h
  · obtain ⟨op, hop, hexec⟩ := exec_actsAs hi
    cases (hexec s).symm.trans h
    rw [hexec, actsAs_pending hop]

end Sys2Proof.Proofs

/-! ## Proofs: the encoding of commands -/

namespace Sys2Proof.Proofs

open Sys2Proof Sys2Proof.Machine Sys2Proof.Claims

/-! ### Runs of bits as masks -/

/-- The mask of the bits hi to lo of a word. -/
def runMask (hi lo : Nat) : Word := BitVec.ofNat 32 ((2 ^ (hi - lo + 1) - 1) * 2 ^ lo)

theorem toNat_and_runMask (w : Word) (hi lo : Nat) : (w &&& runMask hi lo).toNat = bitField w hi lo * 2 ^ lo := by
  have hw : w.toNat % 2 ^ 32 = w.toNat := Nat.mod_eq_of_lt w.isLt
  rw [BitVec.toNat_and, runMask, BitVec.toNat_ofNat, ← hw, ← Nat.and_mod_two_pow,
    Nat.mod_eq_of_lt (Nat.and_le_left.trans_lt w.isLt), and_run, bitField_eq]

/-- A masked field is 0 exactly when the field is. -/
theorem and_runMask_eq_zero (w : Word) (hi lo : Nat) : w &&& runMask hi lo = 0#32 ↔ bitField w hi lo = 0 := by
  rw [← BitVec.toNat_inj, toNat_and_runMask, BitVec.toNat_zero, Nat.mul_eq_zero, or_iff_left (Nat.two_pow_pos lo).ne']

/-- The bits of OP select their opcode (R70). -/
theorem and_opMask_eq_iff (w : Word) {n : Nat} (hn : n < 64) :
    w &&& runMask 31 26 = BitVec.ofNat 32 (n * 2 ^ 26) ↔ opField w = n := by
  rw [← BitVec.toNat_inj, toNat_and_runMask, BitVec.toNat_ofNat]
  change opField w * 2 ^ 26 = _ ↔ _
  omega

theorem or_and_mask_left (m m' : Word) : (m ||| m') &&& m = m := by
  ext i hi
  simpa using Or.inl

theorem or_and_mask_right (m m' : Word) : (m ||| m') &&& m' = m' := by
  ext i hi
  simpa using Or.inr

/-- Of a value b within the mask m and outside the mask m': a word gives b under both masks at once exactly when it gives b under m
and 0 under m'. -/
theorem and_or_eq_iff {w m m' b : Word} (hb : b &&& m = b) (hb' : b &&& m' = 0#32) :
    w &&& (m ||| m') = b ↔ w &&& m = b ∧ w &&& m' = 0#32 := by
  constructor
  · intro h
    constructor
    · rw [← hb, ← h, BitVec.and_assoc, or_and_mask_left]
    · rw [← hb', ← h, BitVec.and_assoc, or_and_mask_right]
  · rintro ⟨h, h'⟩
    rw [BitVec.and_or_distrib_left, h, h', BitVec.or_zero]

/-! ### The layout of each opcode -/

/-- A format of R71 to R75 with the commands that use it. -/
inductive Layout where
  /-- Format N (R71). -/
  | n (i : Instr)
  /-- Format R (R72). -/
  | r (f : Sel → Instr)
  /-- Format V (R73). -/
  | v (f : Sel → Byte → Instr)
  /-- Format B (R74). -/
  | b (usesWidth usesVal : Bool) (f : Sel → Nat → Nat → Nat → Byte → Instr)
  /-- Format D (R75). -/
  | d

/-- The layout of an assigned opcode (R76). -/
def layoutOf : Nat → Option Layout
  | 0x01 => some (.n .resetrec)
  | 0x02 => some (.b false false fun s y b _ _ => .getbit s y b)
  | 0x03 => some (.b false true fun s y b _ v => .setbit s y b v)
  | 0x04 => some (.b true false fun s y a n _ => .getbits s y a n)
  | 0x05 => some (.b true true .setbits)
  | 0x08 => some (.r .csum)
  | 0x09 => some (.r .stamp)
  | 0x0A => some (.r .isvalid)
  | 0x0C => some (.v .encode)
  | 0x0D => some .d
  | 0x10 => some (.v .setpower)
  | 0x11 => some (.r .getpower)
  | 0x12 => some (.v .setmode)
  | 0x13 => some (.r .getmode)
  | 0x14 => some (.v .settemp)
  | 0x15 => some (.r .gettemp)
  | 0x16 => some (.v .setfan)
  | 0x17 => some (.r .getfan)
  | 0x18 => some (.v .setswing)
  | 0x19 => some (.r .getswing)
  | 0x1A => some (.v .setturbo)
  | 0x1B => some (.r .getturbo)
  | 0x1C => some (.v .setlight)
  | 0x1D => some (.r .getlight)
  | 0x1E => some (.v .setsleep)
  | 0x1F => some (.r .getsleep)
  | _ => none

/-- The "must be 0" bits of a layout, as a mask (R71 to R75). -/
def Layout.reserved : Layout → Word
  | .n _ => runMask 25 0
  | .r _ => runMask 24 0
  | .v _ => runMask 24 8
  | .b usesWidth usesVal _ => runMask 24 24 ||| runMask 11 8 ||| (if usesWidth then 0#32 else runMask 15 12) |||
      (if usesVal then 0#32 else runMask 7 0)
  | .d => 0#32

/-- The command of a word in a layout. -/
def Layout.command : Layout → Word → Instr
  | .n i, _ => i
  | .r f, w => f (selField w)
  | .v f, w => f (selField w) (valField w)
  | .b _ _ f, w => f (selField w) (bitField w 23 19) (bitField w 18 16) (bitField w 15 12) (valField w)
  | .d, w => formatD w

/-- What a layout's format makes of a word. -/
def Layout.read : Layout → Word → Except DecodeError Instr
  | .n i, w => formatN w i
  | .r f, w => formatR w f
  | .v f, w => formatV w f
  | .b usesWidth usesVal f, w => formatB w usesWidth usesVal f
  | .d, w => .ok (formatD w)

/-- The decoder reads a word in the layout of its OP (R70, R76). -/
theorem decode_eq_read {w : Word} {l : Layout} (hl : layoutOf (opField w) = some l) : decode w = l.read w := by
  unfold layoutOf at hl
  split at hl
  all_goals cases hl
  all_goals next hop => simp only [decode, hop, Layout.read]

/-- A word whose OP is reserved decodes to nothing (R77). -/
theorem decode_of_reserved {w : Word} (hl : layoutOf (opField w) = none) :
    decode w = .error (.reservedOpcode (opField w)) := by
  unfold decode
  split
  all_goals simp_all [layoutOf]

section Reserved

variable (w : Word)

@[simp] theorem and_reserved_n (i : Instr) : w &&& (Layout.n i).reserved = 0#32 ↔ bitField w 25 0 = 0 :=
  and_runMask_eq_zero w 25 0

@[simp] theorem and_reserved_r (f : Sel → Instr) : w &&& (Layout.r f).reserved = 0#32 ↔ bitField w 24 0 = 0 :=
  and_runMask_eq_zero w 24 0

@[simp] theorem and_reserved_v (f : Sel → Byte → Instr) : w &&& (Layout.v f).reserved = 0#32 ↔ bitField w 24 8 = 0 :=
  and_runMask_eq_zero w 24 8

@[simp] theorem and_reserved_b (usesWidth usesVal : Bool) (f : Sel → Nat → Nat → Nat → Byte → Instr) :
    w &&& (Layout.b usesWidth usesVal f).reserved = 0#32 ↔ bitField w 24 24 = 0 ∧ bitField w 11 8 = 0 ∧
      (usesWidth = true ∨ bitField w 15 12 = 0) ∧ (usesVal = true ∨ bitField w 7 0 = 0) := by
  cases usesWidth <;> cases usesVal <;>
    simp [Layout.reserved, BitVec.and_or_distrib_left, and_runMask_eq_zero, and_assoc]

@[simp] theorem and_reserved_d : w &&& Layout.d.reserved = 0#32 := BitVec.and_zero

end Reserved

/-- A layout accepts a word exactly when the word's "must be 0" bits are 0 (R77). -/
theorem read_ok_iff (l : Layout) (w : Word) (i : Instr) :
    l.read w = .ok i ↔ w &&& l.reserved = 0#32 ∧ l.command w = i := by
  cases l with
  | n j => simp [Layout.read, formatN, ifZero_ok_iff, Layout.command]
  | r f => simp [Layout.read, formatR, ifZero_ok_iff, Layout.command]
  | v f => simp [Layout.read, formatV, ifZero_ok_iff, Layout.command]
  | b usesWidth usesVal f => simp [Layout.read, formatB, ifZero_ok_iff, Layout.command, and_assoc]
  | d => simp [Layout.read, Layout.command]

/-- The words that decode, and what to. -/
theorem decode_ok_iff (w : Word) (i : Instr) :
    decode w = .ok i ↔ ∃ l, layoutOf (opField w) = some l ∧ w &&& l.reserved = 0#32 ∧ l.command w = i := by
  cases hl : layoutOf (opField w) with
  | none => simp [decode_of_reserved hl]
  | some l => simp [decode_eq_read hl, read_ok_iff]

/-! ### The opcode map -/

/-- The row of R76 for an opcode and its layout. -/
def Layout.row (n : Nat) (l : Layout) : OpcodeRow :=
  ⟨(l.command 0).mnemonic, BitVec.ofNat 32 (n * 2 ^ 26), runMask 31 26 ||| l.reserved⟩

/-- The opcode map lists the rows of the assigned opcodes, lowest first. -/
theorem opcodeTable_eq : opcodeTable = (List.range 64).filterMap fun n => (layoutOf n).map (Layout.row n) := by
  decide

/-- Every assigned opcode fits the six bits of OP. -/
theorem layoutOf_lt {n : Nat} {l : Layout} (hl : layoutOf n = some l) : n < 64 := by
  unfold layoutOf at hl
  split at hl
  all_goals cases hl
  all_goals decide

theorem mem_opcodeTable (r : OpcodeRow) : r ∈ opcodeTable ↔ ∃ n l, layoutOf n = some l ∧ l.row n = r := by
  simp only [opcodeTable_eq, List.mem_filterMap, List.mem_range, Option.map_eq_some_iff]
  exact ⟨fun ⟨n, _, l, h⟩ => ⟨n, l, h⟩, fun ⟨n, l, hl, h⟩ => ⟨n, layoutOf_lt hl, l, hl, h⟩⟩

/-- No "must be 0" bit is one of OP's. -/
theorem opMask_and_reserved (l : Layout) : runMask 31 26 &&& l.reserved = 0#32 := by
  cases l with
  | b usesWidth usesVal f =>
    simp only [Layout.reserved]
    revert usesWidth usesVal
    decide
  | n | r | v | d =>
    simp only [Layout.reserved]
    decide

/-- A word selects a row when its OP is the row's and its "must be 0" bits are 0. -/
theorem selects_row_iff {n : Nat} {l : Layout} (hl : layoutOf n = some l) (w : Word) :
    (l.row n).selects w = true ↔ opField w = n ∧ w &&& l.reserved = 0#32 := by
  have hn := layoutOf_lt hl
  have hop : BitVec.ofNat 32 (n * 2 ^ 26) &&& runMask 31 26 = BitVec.ofNat 32 (n * 2 ^ 26) := by
    rw [and_opMask_eq_iff _ hn, opField_eq, BitVec.toNat_ofNat]
    omega
  have hreserved : BitVec.ofNat 32 (n * 2 ^ 26) &&& l.reserved = 0#32 := by
    rw [← hop, BitVec.and_assoc, opMask_and_reserved, BitVec.and_zero]
  rw [OpcodeRow.selects, beq_iff_eq, ← and_opMask_eq_iff w hn]
  exact and_or_eq_iff hop hreserved

/-- A row that selects a word is the row of the word's own layout, and the word's "must be 0" bits are 0. -/
theorem row_of_selects {w : Word} {r : OpcodeRow} (hr : r ∈ opcodeTable) (hs : r.selects w = true) :
    ∃ l, layoutOf (opField w) = some l ∧ l.row (opField w) = r ∧ w &&& l.reserved = 0#32 := by
  obtain ⟨n, l, hl, rfl⟩ := (mem_opcodeTable r).1 hr
  obtain ⟨rfl, hzero⟩ := (selects_row_iff hl w).1 hs
  exact ⟨l, hl, rfl, hzero⟩

/-- A word is legal exactly when it selects a row (R76, R77). -/
theorem legal_iff_selects (w : Word) : (∃ i, decode w = .ok i) ↔ ∃ r ∈ opcodeTable, r.selects w = true := by
  simp only [decode_ok_iff]
  constructor
  · rintro ⟨i, l, hl, hzero, -⟩
    exact ⟨l.row (opField w), (mem_opcodeTable _).2 ⟨_, l, hl, rfl⟩, (selects_row_iff hl w).2 ⟨rfl, hzero⟩⟩
  · rintro ⟨r, hr, hs⟩
    obtain ⟨l, hl, -, hzero⟩ := row_of_selects hr hs
    exact ⟨l.command w, l, hl, hzero, rfl⟩

/-- All words of a layout have the same mnemonic. -/
theorem mnemonic_command {n : Nat} {l : Layout} (hl : layoutOf n = some l) (w w' : Word) :
    (l.command w).mnemonic = (l.command w').mnemonic := by
  unfold layoutOf at hl
  split at hl
  all_goals cases hl
  all_goals rfl

/-- Settles O3: decoder and table both go by the layout of the word's OP. -/
theorem decodeAgreesWithTheOpcodeMap : Obligations.DecodeAgreesWithTheOpcodeMap := by
  refine ⟨legal_iff_selects, fun w i r hd hr hs => ?_, fun w r r' hr hr' hs hs' => ?_⟩
  · obtain ⟨l, hl, rfl, -⟩ := row_of_selects hr hs
    obtain ⟨l', hl', -, rfl⟩ := (decode_ok_iff w i).1 hd
    cases hl.symm.trans hl'
    exact mnemonic_command hl 0 w
  · obtain ⟨l, hl, rfl, -⟩ := row_of_selects hr hs
    obtain ⟨l', hl', rfl, -⟩ := row_of_selects hr' hs'
    cases hl.symm.trans hl'
    rfl

/-! ### Encoding -/

/-- The commands of a layout are well formed for operands that fit, have the opcode n, and have the layout's operand fields, 0 where
the layout does not use one (R71 to R75, R78). -/
def Layout.Packs (n : Nat) : Layout → Prop
  | .n i => i.wf = true ∧ i.opcode = n ∧ i.operands = 0
  | .r f => ∀ q, (f q).wf = true ∧ (f q).opcode = n ∧ (f q).operands = packV q 0
  | .v f => ∀ q v, (f q v).wf = true ∧ (f q v).opcode = n ∧ (f q v).operands = packV q v
  | .b usesWidth usesVal f => ∀ q, ∀ y < 32, ∀ b < 8, ∀ k < 16, ∀ v,
      (f q y b k v).wf = true ∧ (f q y b k v).opcode = n ∧
        (f q y b k v).operands = packB q y b (if usesWidth then k else 0) (if usesVal then v else 0)
  | .d => n = 0x0D

theorem packs_of_layoutOf {n : Nat} {l : Layout} (hl : layoutOf n = some l) : l.Packs n := by
  unfold layoutOf at hl
  split at hl
  all_goals cases hl
  all_goals simp +contextual [Layout.Packs, Instr.opcode, Instr.operands, Instr.wf]

/-- OP and the bits below it make up the word (R70). -/
theorem ofNat_opField_add {w : Word} {k : Nat} (hk : k = bitField w 25 0) : BitVec.ofNat 32 (opField w * 2 ^ 26 + k) = w := by
  have := w.isLt
  apply BitVec.eq_of_toNat_eq
  rw [BitVec.toNat_ofNat, hk, opField_eq, bitField_eq]
  omega

/-- SEL and VAL make up the bits below OP where the others are 0 (R72, R73). -/
theorem packV_fields_eq {w : Word} {v : Byte} (hzero : bitField w 24 8 = 0) (hv : v.toNat = bitField w 7 0) :
    packV (selField w) v = bitField w 25 0 := by
  rw [packV, selField_toBit, hv]
  simp only [bitField_eq] at *
  omega

/-- The "must be 0" bits of format R are those of format V and VAL (R72, R73). -/
theorem bitField_low_eq_zero (w : Word) : bitField w 24 0 = 0 ↔ bitField w 24 8 = 0 ∧ bitField w 7 0 = 0 := by
  simp only [bitField_eq]
  omega

/-- The operand fields of format B make up the bits below OP where the others are 0 (R74). -/
theorem packB_fields_eq {w : Word} {k : Nat} {v : Byte} (h24 : bitField w 24 24 = 0) (h11 : bitField w 11 8 = 0)
    (hk : k = bitField w 15 12) (hv : v.toNat = bitField w 7 0) :
    packB (selField w) (bitField w 23 19) (bitField w 18 16) k v = bitField w 25 0 := by
  rw [packB, selField_toBit, hv, hk]
  simp only [bitField_eq] at *
  omega

/-- The operand fields of format D make up the bits below OP (R75). -/
theorem packD_fields_eq (w : Word) :
    packD (strictField w) (bitField w 24 16) (bitField w 15 0) = bitField w 25 0 := by
  rw [packD, strictField_toNat]
  simp only [bitField_eq]
  omega

theorem bitField_lt (w : Word) (hi lo : Nat) : bitField w hi lo < 2 ^ (hi - lo + 1) := by
  rw [bitField_eq]
  exact Nat.mod_lt _ (Nat.two_pow_pos _)

/-- The command of a word whose "must be 0" bits are 0 is well formed, and its operand bits are the word's bits below OP. -/
theorem command_of_packs {n : Nat} {w : Word} {l : Layout} (hl : l.Packs n) (hzero : w &&& l.reserved = 0#32) :
    (l.command w).wf = true ∧ (l.command w).opcode = n ∧ (l.command w).operands = bitField w 25 0 := by
  cases l with
  | n i =>
    obtain ⟨hwf, hop, hargs⟩ := hl
    rw [and_reserved_n] at hzero
    exact ⟨hwf, hop, hargs.trans hzero.symm⟩
  | r f =>
    obtain ⟨hwf, hop, hargs⟩ := hl (selField w)
    obtain ⟨h24, h7⟩ := (bitField_low_eq_zero w).1 ((and_reserved_r w f).1 hzero)
    exact ⟨hwf, hop, hargs.trans (packV_fields_eq h24 h7.symm)⟩
  | v f =>
    obtain ⟨hwf, hop, hargs⟩ := hl (selField w) (valField w)
    exact ⟨hwf, hop, hargs.trans (packV_fields_eq ((and_reserved_v w f).1 hzero) (valField_toNat w))⟩
  | b usesWidth usesVal f =>
    obtain ⟨hwf, hop, hargs⟩ :=
      hl (selField w) _ (bitField_lt w 23 19) _ (bitField_lt w 18 16) _ (bitField_lt w 15 12) (valField w)
    obtain ⟨h24, h11, hwidth, hval⟩ := (and_reserved_b w usesWidth usesVal f).1 hzero
    refine ⟨hwf, hop, hargs.trans (packB_fields_eq h24 h11 ?_ ?_)⟩
    · cases usesWidth <;> simp_all
    · cases usesVal <;> simp_all [valField_toNat]
  | d =>
    obtain rfl : n = 0x0D := hl
    have hwf : (formatD w).wf = true :=
      Bool.and_eq_true_iff.2 ⟨decide_eq_true (bitField_lt w 24 16), decide_eq_true (bitField_lt w 15 0)⟩
    exact ⟨hwf, rfl, packD_fields_eq w⟩

/-- Settles O2: the operands of the command are the bits below OP, and its opcode is OP. -/
theorem encodeOfDecodeIsTheWord : Obligations.EncodeOfDecodeIsTheWord := by
  intro w i hd
  obtain ⟨l, hl, hzero, rfl⟩ := (decode_ok_iff w i).1 hd
  obtain ⟨hwf, hop, hargs⟩ := command_of_packs (packs_of_layoutOf hl) hzero
  exact ⟨hwf, by rw [encode, hop, ofNat_opField_add hargs]⟩

/-! ### Decoding an encoded command -/

/-- A packed word of format V with an opcode of that format decodes to its command (R73). -/
theorem decode_packV {n : Nat} {f : Sel → Byte → Instr} (hl : layoutOf n = some (.v f)) (q : Sel) (v : Byte) :
    decode (BitVec.ofNat 32 (n * 2 ^ 26 + packV q v)) = .ok (f q v) := by
  obtain ⟨hop, hq, hv, hzero, -⟩ := packV_fields q v (layoutOf_lt hl) rfl
  exact (decode_ok_iff _ _).2 ⟨_, by rwa [hop], (and_reserved_v _ f).2 hzero, by rw [Layout.command, hq, hv]⟩

/-- A packed word of format R with an opcode of that format decodes to its command (R72). -/
theorem decode_packR {n : Nat} {f : Sel → Instr} (hl : layoutOf n = some (.r f)) (q : Sel) :
    decode (BitVec.ofNat 32 (n * 2 ^ 26 + packV q 0)) = .ok (f q) := by
  obtain ⟨hop, hq, -, h24, h7⟩ := packV_fields q 0 (layoutOf_lt hl) rfl
  exact (decode_ok_iff _ _).2
    ⟨_, by rwa [hop], (and_reserved_r _ f).2 ((bitField_low_eq_zero _).2 ⟨h24, h7⟩), by rw [Layout.command, hq]⟩

/-- A packed word of format B with an opcode of that format decodes to its command, where WIDTH and VAL are 0 if the command does
not use them (R74). -/
theorem decode_packB {n y b k : Nat} {usesWidth usesVal : Bool} {f : Sel → Nat → Nat → Nat → Byte → Instr}
    (hl : layoutOf n = some (.b usesWidth usesVal f)) (q : Sel) (v : Byte) (hy : y < 32) (hb : b < 8) (hk : k < 16)
    (hwidth : usesWidth = true ∨ k = 0) (hval : usesVal = true ∨ v = 0) :
    decode (BitVec.ofNat 32 (n * 2 ^ 26 + packB q y b k v)) = .ok (f q y b k v) := by
  obtain ⟨hop, hq, h24, hy', hb', hk', h11, hv, hv'⟩ := packB_fields q v (layoutOf_lt hl) hy hb hk rfl
  refine (decode_ok_iff _ _).2 ⟨_, by rwa [hop], (and_reserved_b _ _ _ f).2 ⟨h24, h11, ?_, ?_⟩, ?_⟩
  · exact hwidth.imp_right hk'.trans
  · exact hval.imp_right fun h0 => hv'.trans (congrArg BitVec.toNat h0)
  · rw [Layout.command, hq, hy', hb', hk', hv]

/-- A packed word of format D decodes to its DECODE (R75). -/
theorem decode_packD {m o : Nat} (st : Bool) (hm : m < 512) (ho : o < 65536) :
    decode (BitVec.ofNat 32 (0x0D * 2 ^ 26 + packD st m o)) = .ok (.decode st m o) := by
  obtain ⟨hop, hst, hm', ho'⟩ := packD_fields st (by decide : 0x0D < 64) hm ho rfl
  exact (decode_ok_iff _ _).2 ⟨.d, by rw [hop]; rfl, and_reserved_d _, by rw [Layout.command, formatD, hst, hm', ho']⟩

/-- Settles O1: the word of a command is packed in its format, for operands that fit. -/
theorem decodeOfEncodeIsTheInstruction : Obligations.DecodeOfEncodeIsTheInstruction := by
  intro i hwf
  cases i with
  | resetrec => rfl
  | getbit q y b =>
    simp only [Instr.wf, Bool.and_eq_true, decide_eq_true_eq] at hwf
    obtain ⟨hy, hb⟩ := hwf
    exact decode_packB (n := 0x02) rfl q 0 hy hb (Nat.zero_lt_succ _) (.inr rfl) (.inr rfl)
  | setbit q y b v =>
    simp only [Instr.wf, Bool.and_eq_true, decide_eq_true_eq] at hwf
    obtain ⟨hy, hb⟩ := hwf
    exact decode_packB (n := 0x03) rfl q v hy hb (Nat.zero_lt_succ _) (.inr rfl) (.inl rfl)
  | getbits q y a k =>
    simp only [Instr.wf, Bool.and_eq_true, decide_eq_true_eq] at hwf
    obtain ⟨⟨hy, ha⟩, hk⟩ := hwf
    exact decode_packB (n := 0x04) rfl q 0 hy ha hk (.inl rfl) (.inr rfl)
  | setbits q y a k v =>
    simp only [Instr.wf, Bool.and_eq_true, decide_eq_true_eq] at hwf
    obtain ⟨⟨hy, ha⟩, hk⟩ := hwf
    exact decode_packB (n := 0x05) rfl q v hy ha hk (.inl rfl) (.inl rfl)
  | decode st m o =>
    simp only [Instr.wf, Bool.and_eq_true, decide_eq_true_eq] at hwf
    obtain ⟨hm, ho⟩ := hwf
    exact decode_packD st hm ho
  | csum q | stamp q | isvalid q | getpower q | getmode q | gettemp q | getfan q | getswing q | getturbo q | getlight q
  | getsleep q => exact decode_packR rfl q
  | encode q v | setpower q v | setmode q v | settemp q v | setfan q v | setswing q v | setturbo q v | setlight q v
  | setsleep q v => exact decode_packV rfl q v

/-- Settles O4: each word is decoded field by field. -/
theorem workedEncodingsDecode : Obligations.WorkedEncodingsDecode :=
  ⟨rfl, rfl, rfl, rfl, rfl, rfl, rfl, rfl, rfl, rfl⟩

/-! ### Illegal words and operands out of range -/

/-- Failing with one of the three codes that set ILL (R30, R182). -/
theorem raiseFail_of_setsIll {c : Code} (hc : c.setsIll = true) (s : State) :
    s.raiseFail c = { s with code := c, unknown := false, ill := true } := by
  rw [State.raiseFail, hc, Bool.or_true]

/-- A word that selects no row fails with E_ILLEGAL (R77). -/
theorem issueCommand_of_no_row {w : Word} (h : ∀ r ∈ opcodeTable, r.selects w ≠ true) (s : State) :
    issueCommand w s = .next (s.raiseFail .illegal) := by
  rcases issueCommand_cases w s with ⟨i, hd, -⟩ | ⟨e, -, he⟩
  · obtain ⟨r, hr, hs⟩ := (legal_iff_selects w).1 ⟨i, hd⟩
    exact absurd hs (h r hr)
  · exact he

/-- Settles O6: a word that no row's mask and match fit is not legal, and failing with E_ILLEGAL writes STATUS only. -/
theorem illegalWordChangesOnlyStatus : Obligations.IllegalWordChangesOnlyStatus := by
  intro s w rest hp hno
  have hsel : ∀ r ∈ opcodeTable, r.selects w ≠ true := fun r hr hs => hno r hr (beq_iff_eq.1 hs)
  rw [step_of_pending hp, applyMove, issueCommand_of_no_row hsel, raiseFail_of_setsIll rfl]

/-- Settles O30: of the ways a command ends, all but the failed range check need their operands in range. -/
theorem outOfRangeOperandsAreRejected : Obligations.OutOfRangeOperandsAreRejected := by
  intro i s hr
  obtain ⟨t, hexec, heffect⟩ := exec_effect i s
  rw [RejectedWith, hexec]
  cases heffect with
  | outOfRange => rw [raiseFail_of_setsIll rfl]
  | gatedOff h | answered _ _ _ h | wrote _ _ h => exact absurd h hr
  | emitted _ _ hi | created hi | decoded _ _ _ _ hi | undecoded _ _ _ _ hi => exact absurd (hi ▸ trivial) hr

/-! ### Bit-field access -/

/-- A bit range that lies in a byte of the record passes the range check (R79). -/
theorem inField_in_range {a w : Nat} (hw : 1 ≤ w) (haw : a + w ≤ 8) (y : ByteIx) (body : ByteIx → State → State) (s : State) :
    inField y a w body s = body y s := by
  have hf : fieldInByte a w = true := (fieldInByte_iff a w).2 ⟨hw, by omega, haw⟩
  rw [inField_run hf, inByte_run y.isLt]

/-- GETBITS in range runs its steps on the byte (R133). -/
theorem exec_getbits {a w : Nat} (hw : 1 ≤ w) (haw : a + w ≤ 8) (q : Sel) (y : ByteIx) (s : State) :
    exec (.getbits q y a w) s = .next (readBits q a w y s) := by
  rw [exec, execGetbits, inField_in_range hw haw]

/-- SETBITS in range runs its steps on the byte (R134). -/
theorem exec_setbits {a w : Nat} (hw : 1 ≤ w) (haw : a + w ≤ 8) (q : Sel) (y : ByteIx) (v : Byte) (s : State) :
    exec (.setbits q y a w v) s = .next (writeBits q a w v y s) := by
  rw [exec, execSetbits, inField_in_range hw haw]

/-- SETBIT in range runs its steps on the byte (R132). -/
theorem exec_setbit (q : Sel) (y : ByteIx) (b : Nat) (v : Byte) (s : State) :
    exec (.setbit q y b v) s = .next (writeBits q b 1 (boolVal v) y s) := by
  rw [exec, execSetbit, inByte_run y.isLt]

/-- GETBITS answers the bits of its range (R133). -/
theorem getbits_answers {q : Sel} {s : State} {a w : Nat} (hu : Usable q s) (hw : 1 ≤ w) (haw : a + w ≤ 8) (y : ByteIx) :
    Answers (.getbits q y a w) s ((s.sel q)[y].toNat / 2 ^ a % 2 ^ w) false :=
  answers_of_gated hu (exec_getbits hw haw q y s) (by
    rw [← getBitsFn_toNat _ (by omega : w ≤ 8), BitVec.ofNat_toNat]; rfl)

/-- GETBITS of all eight bits answers the byte. -/
theorem getbits_answers_byte {q : Sel} {s : State} (hu : Usable q s) (y : ByteIx) :
    Answers (.getbits q y 0 8) s (s.sel q)[y].toNat false := by
  have h := getbits_answers hu (by decide) (by decide : 0 + 8 ≤ 8) y
  rwa [Nat.pow_zero, Nat.div_one, Nat.mod_eq_of_lt (s.sel q)[y].isLt] at h

/-- The rule for every gated command that writes the record it selects (R180, R183): on a usable record it completes with the record
its steps write, and changes nothing else. -/
theorem completesOn_of_gated {i : Instr} {q : Sel} {s : State} {body : State → State} {r : Record} (hu : Usable q s)
    (hexec : exec i s = .next (gated q body s)) (hbody : body s = (s.withSel q r).complete false) :
    ∃ t, CompletesOn q i s t ∧ t.sel q = r := by
  refine ⟨(s.withSel q r).complete false, ⟨?_, ?_⟩, ?_⟩
  · rw [hexec, gated_run ((readable_iff s q).2 hu), hbody]
  · rw [complete_sel, withSel_sel_self]; rfl
  · rw [complete_sel, withSel_sel_self]

/-- SETBITS writes its bit range of the byte (R134). -/
theorem setbits_completesOn {q : Sel} {s : State} {a w : Nat} (hu : Usable q s) (hw : 1 ≤ w) (haw : a + w ≤ 8) (y : ByteIx)
    (v : Byte) : ∃ t, CompletesOn q (.setbits q y a w v) s t ∧ t.sel q = setBitsIn y a w v (s.sel q) :=
  completesOn_of_gated hu (exec_setbits hw haw q y v s) rfl

/-- SETBIT writes its bit of the byte (R132). -/
theorem setbit_completesOn {q : Sel} {s : State} (hu : Usable q s) (y : ByteIx) (b : Nat) (v : Byte) :
    ∃ t, CompletesOn q (.setbit q y b v) s t ∧ t.sel q = setBitsIn y b 1 (boolVal v) (s.sel q) :=
  completesOn_of_gated hu (exec_setbit q y b v s) rfl

/-- Writing all eight bits of a byte is writing the byte. -/
theorem setBitsIn_byte (y : ByteIx) (v : Byte) (r : Record) : setBitsIn y 0 8 v r = r.set y v := by
  have hv : setBitsFn r[y] 0 8 v = v := by
    refine BitVec.eq_of_getLsbD_eq fun b hb => ?_
    rw [getLsbD_setBitsFn _ _ (by decide : 0 + 8 ≤ 8) hb, if_pos ⟨Nat.zero_le b, by omega⟩, Nat.sub_zero]
  rw [setBitsIn, hv]

/-- A bit-range write replaces the bits of its range in its byte (R130). -/
theorem bitsReplaced_setBitsIn {a w : Nat} (haw : a + w ≤ 8) (y : ByteIx) (v : Byte) (r : Record) :
    BitsReplaced (setBitsIn y a w v r)[y] r[y] a w v.toNat := by
  intro b hb
  have hy : (setBitsIn y a w v r)[y] = setBitsFn r[y] a w v := Vector.getElem_set_self _
  rw [hy, getLsbD_setBitsFn _ _ haw hb]
  rfl

/-- A bit-range write keeps the other bytes. -/
theorem getElem_setBitsIn_ne {y j : ByteIx} (hj : j ≠ y) (a w : Nat) (v : Byte) (r : Record) :
    (setBitsIn y a w v r)[j] = r[j] :=
  Vector.getElem_set_ne _ _ fun h => hj (Fin.ext h.symm)

/-- Settles O45: getbyte and getcsum are GETBITS, setbyte is SETBITS and clrbit is SETBIT, each over a range that lies in the
byte. -/
theorem pseudoInstructionsExpandAsNamed : Obligations.PseudoInstructionsExpandAsNamed := by
  refine ⟨fun q y b o v rep => ⟨rfl, rfl, rfl, rfl, rfl, rfl⟩, fun q y s hu =>
    ⟨getbits_answers_byte hu y, getbits_answers_byte hu 17, fun v => ?_, fun b hb => ?_⟩⟩
  · obtain ⟨t, ht, hsel⟩ := setbits_completesOn hu (by decide) (by decide : 0 + 8 ≤ 8) y v
    exact ⟨t, ht, hsel.trans (setBitsIn_byte y v _)⟩
  · obtain ⟨t, ht, hsel⟩ := setbit_completesOn hu y b 0
    refine ⟨t, ht, ?_, fun j hj => ?_⟩ <;> rw [hsel]
    · exact bitsReplaced_setBitsIn hb y (boolVal 0) _
    · exact getElem_setBitsIn_ne hj _ _ _ _

/-! ### Sending a record -/

/-- STAMP on a usable record writes its checksum (R142). -/
theorem exec_stamp {q : Sel} {s : State} (hu : Usable q s) :
    exec (.stamp q) s = .next ((s.withSel q (stampOf (s.sel q))).complete false) := by
  rw [exec, execStamp, gated_run ((readable_iff s q).2 hu)]
  rfl

/-- ENCODE on a usable record emits its transmission (R151). -/
theorem exec_encode {q : Sel} {s : State} (hu : Usable q s) (rep : Byte) :
    exec (.encode q rep) s = .next ((s.emit (transmissionOf s.params (s.sel q) rep)).complete false) := by
  rw [exec, execEncode, gated_run ((readable_iff s q).2 hu)]

/-- Settles O52: STAMP leaves the record usable and with a right checksum, and ENCODE emits the frame of the record it finds. -/
theorem sendEmitsAFreshChecksum : Obligations.SendEmitsAFreshChecksum := by
  intro q rep s hu
  have hu' : Usable q ((s.withSel q (stampOf (s.sel q))).complete false) := by
    rw [Usable, complete_candValid, withSel_candValid]
    exact hu
  refine ⟨rfl, _, _, stampOf (s.sel q), exec_stamp hu, exec_encode hu' rep, ?_, ?_, fun j hj => ?_⟩
  · simp [transmissionOf, frameCount]
  · exact (stamped_iff_byteSum _).1 (stamped_stamp _)
  · exact Vector.getElem_set_ne _ _ fun h => hj (Fin.ext h.symm)

end Sys2Proof.Proofs

/-! ## Proofs: record creation and the named fields -/

namespace Sys2Proof.Proofs

open Sys2Proof Sys2Proof.Machine Sys2Proof.Claims

/-! ### The named setters -/

/-- A stamp keeps the bytes it sums (R142). -/
theorem getElem_stampOf_ne {j : ByteIx} (hj : j ≠ 17) (r : Record) : (stampOf r)[j] = r[j] :=
  Vector.getElem_set_ne _ _ fun h => hj (Fin.ext h.symm)

/-- A stamp leaves the sum in byte 17 (R142). -/
theorem byteSum_stampOf (r : Record) : (stampOf r)[17].toNat = byteSum (stampOf r) :=
  (stamped_iff_byteSum _).1 (stamped_stamp r)

/-- The rule for a named setter on a usable record: it completes with its field written and the record stamped (R101). -/
theorem setNamed_completesOn {i : Instr} {f : Field} {q : Sel} {v : Byte} {s : State} (hu : Usable q s)
    (hexec : exec i s = .next (setNamed f q v s)) :
    ∃ t, CompletesOn q i s t ∧
      t.sel q = stampOf (setBitsIn f.pos.byte f.pos.start f.pos.width v (s.sel q)) := by
  rw [setNamed_eq] at hexec
  exact completesOn_of_gated hu hexec rfl

/-- A command that is the named setter of a field outside byte 17, with VAL made into `stored VAL`, sets that field: the stamp
after the write touches no bit of the field and no other byte than 17. -/
theorem setsField_of_setNamed {instr : Sel → Byte → Instr} {f : Field} {i : ByteIx} {a w : Nat} {stored : Byte → Byte}
    {value : Byte → Nat} (hexec : ∀ q v s, exec (instr q v) s = .next (setNamed f q (stored v) s))
    (hpos : f.pos = ⟨i, a, w⟩) (haw : a + w ≤ 8) (hi : i ≠ 17) (hvalue : ∀ v, (stored v).toNat = value v) :
    SetsField instr i a w value := by
  intro q v s hu
  obtain ⟨t, ht, hsel⟩ := setNamed_completesOn hu (hexec q v s)
  rw [hpos] at hsel
  refine ⟨t, ht, ?_, fun j hji hj => ?_, ?_⟩ <;> rw [hsel]
  · rw [getElem_stampOf_ne hi, ← hvalue]
    exact bitsReplaced_setBitsIn haw i (stored v) _
  · rw [getElem_stampOf_ne hj, getElem_setBitsIn_ne hji]
  · exact byteSum_stampOf _

/-- VAL as a boolean, in the statements' arithmetic (R102). -/
theorem boolVal_toNat (v : Byte) : (boolVal v).toNat = if v = 0 then 0 else 1 := by
  rw [boolVal, apply_ite BitVec.toNat]
  rfl

/-- A clamped temperature less 16 fits a byte (R106). -/
theorem clampTemp_toNat (v : Byte) : (clampTemp v).toNat = min (max v.toNat 16) 31 - 16 := by
  rw [clampTemp, BitVec.toNat_ofNat]
  omega

/-- Settles O36: the rule at each of the four fields, with VAL stored as a boolean. -/
theorem flagSettersWriteOneBitAndStamp : Obligations.FlagSettersWriteOneBitAndStamp :=
  ⟨setsField_of_setNamed (f := .power) (fun _ _ _ => rfl) rfl (by decide) (by decide) boolVal_toNat,
    setsField_of_setNamed (f := .turbo) (fun _ _ _ => rfl) rfl (by decide) (by decide) boolVal_toNat,
    setsField_of_setNamed (f := .light) (fun _ _ _ => rfl) rfl (by decide) (by decide) boolVal_toNat,
    setsField_of_setNamed (f := .sleep) (fun _ _ _ => rfl) rfl (by decide) (by decide) boolVal_toNat⟩

/-- Settles O37: the rule at each of the three fields, with VAL stored as it is; the write takes its low bits. -/
theorem enumSettersTruncateAndStamp : Obligations.EnumSettersTruncateAndStamp :=
  ⟨setsField_of_setNamed (f := .mode) (fun _ _ _ => rfl) rfl (by decide) (by decide) fun _ => rfl,
    setsField_of_setNamed (f := .fan) (fun _ _ _ => rfl) rfl (by decide) (by decide) fun _ => rfl,
    setsField_of_setNamed (f := .swing) (fun _ _ _ => rfl) rfl (by decide) (by decide) fun _ => rfl⟩

/-- Settles O38: the rule at the temperature, with VAL stored clamped and less 16. -/
theorem settempClampsAndStamps : Obligations.SettempClampsAndStamps :=
  setsField_of_setNamed (f := .temperature) (fun _ _ _ => rfl) rfl (by decide) (by decide) clampTemp_toNat

/-! ### RESETREC -/

/-- The stamped pattern is the record the statements speak of: its sum is 0x1F (R37). -/
theorem resetRecord_eq_recAtReset : resetRecord = recAtReset := by decide

/-- Settles O35: RESETREC puts the stamped pattern in REC and completes. -/
theorem resetrecRestoresTheDefaultRecord : Obligations.ResetrecRestoresTheDefaultRecord := by
  intro s
  rw [← resetRecord_eq_recAtReset]
  rfl

/-! ### The getters of flags and temperature -/

/-- The rule for a getter of a flag at bit 5 of a byte: it answers that bit. -/
theorem getFlag_answers {i : Instr} {f : Field} {y : ByteIx} {q : Sel} {s : State} (hu : Usable q s)
    (hexec : exec i s = .next (getFlag f q s)) (hpos : f.pos = ⟨y, 5, 1⟩) :
    Answers i s ((s.sel q)[y].toNat / 32 % 2) false := by
  have hbit : (s.fieldRead q f).toNat = (s.sel q)[y].toNat / 32 % 2 := by
    rw [State.fieldRead, hpos]
    exact getBitsFn_toNat _ (by decide : 1 ≤ 8)
  exact answers_of_gated hu hexec (by rw [← hbit, BitVec.ofNat_toNat])

/-- Settles O39: the rule at each of the four flags. -/
theorem flagGettersAnswerBitFive : Obligations.FlagGettersAnswerBitFive :=
  fun _ _ hu => ⟨getFlag_answers (f := .power) (y := 5) hu rfl rfl,
    getFlag_answers (f := .turbo) (y := 11) hu rfl rfl, getFlag_answers (f := .light) (y := 12) hu rfl rfl,
    getFlag_answers (f := .sleep) (y := 13) hu rfl rfl⟩

/-- The temperature field is the whole of byte 7 (R34). -/
theorem fieldRead_temperature_toNat (s : State) (q : Sel) : (s.fieldRead q .temperature).toNat = (s.sel q)[7].toNat :=
  (fieldRead_toNat rfl (by decide) s q).trans (Nat.mod_eq_of_lt (s.sel q)[7].isLt)

/-- Settles O41: GETTEMP is gated on its record and adds 16 to byte 7 in the 16 bits of RES. -/
theorem gettempAnswersByteSevenPlusSixteen : Obligations.GettempAnswersByteSevenPlusSixteen :=
  fun q s hu => answers_of_gated hu rfl (by
    rw [← fieldRead_temperature_toNat, BitVec.ofNat_add, BitVec.ofNat_toNat]; rfl)

end Sys2Proof.Proofs

/-! ## Proofs: the bit-field commands and the bit helpers -/

namespace Sys2Proof.Proofs

open Sys2Proof Sys2Proof.Machine Sys2Proof.Claims

/-! ### The bit helpers -/

/-- Reading a bit range moves its bits down to bit 0 and leaves the bits above them 0 (R130). -/
theorem getLsbD_getBitsFn (x : Byte) (a : Nat) {w b : Nat} (hw : w ≤ 8) (hb : b < 8) :
    (getBitsFn x a w).getLsbD b = (x.getLsbD (a + b) && decide (b < w)) := by
  rw [getBitsFn, BitVec.getLsbD_and, BitVec.getLsbD_ushiftRight, getLsbD_fieldMask hw b hb]

/-- A bit range reads back as the low bits of what was written to it, wherever it stands in the byte (R136). -/
theorem getBitsFn_setBitsFn (x v : Byte) {a w : Nat} (haw : a + w ≤ 8) :
    getBitsFn (setBitsFn x a w v) a w = getBitsFn v 0 w := by
  have hw : w ≤ 8 := by omega
  refine BitVec.eq_of_getLsbD_eq fun b hb => ?_
  rw [getLsbD_getBitsFn _ a hw hb, getLsbD_getBitsFn v 0 hw hb, Nat.zero_add]
  by_cases hbw : b < w
  · have hin : a ≤ a + b ∧ a + b < a + w := by omega
    rw [getLsbD_setBitsFn x v haw (by omega), if_pos hin, Nat.add_sub_cancel_left]
  · rw [decide_eq_false hbw, Bool.and_false, Bool.and_false]

/-- Writing to a bit range what it holds changes nothing (R136). -/
theorem setBitsFn_getBitsFn (x : Byte) {a w : Nat} (haw : a + w ≤ 8) : setBitsFn x a w (getBitsFn x a w) = x := by
  refine BitVec.eq_of_getLsbD_eq fun b hb => ?_
  rw [getLsbD_setBitsFn x _ haw hb]
  split
  case isTrue hin =>
    have hbw : b - a < w := by omega
    rw [getLsbD_getBitsFn x a (by omega) (by omega), Nat.add_sub_cancel' hin.1, decide_eq_true hbw, Bool.and_true]
  case isFalse => rfl

/-- Settles O44: a bit range reads back as it was written, and writing back what was read changes nothing. -/
theorem bitHelperLaws : Obligations.BitHelperLaws := by
  intro x v a w _ haw
  refine ⟨?_, setBitsFn_getBitsFn x haw⟩
  rw [getBitsFn_setBitsFn x v haw, getBitsFn_toNat v (by omega), Nat.pow_zero, Nat.div_one]

/-! ### The bit getters -/

/-- GETBIT in range runs its steps on the byte (R131). -/
theorem exec_getbit (q : Sel) (y : ByteIx) (b : Nat) (s : State) :
    exec (.getbit q y b) s = .next (readBits q b 1 y s) := by
  rw [exec, execGetbit, inByte_run y.isLt]

/-- GETBIT answers its bit (R131). -/
theorem getbit_answers {q : Sel} {s : State} (hu : Usable q s) (y : ByteIx) (b : Nat) :
    Answers (.getbit q y b) s ((s.sel q)[y].toNat / 2 ^ b % 2) false := by
  have hbit : (s.bitsRead q y b 1).toNat = (s.sel q)[y].toNat / 2 ^ b % 2 := getBitsFn_toNat _ (by decide : 1 ≤ 8)
  exact answers_of_gated hu (exec_getbit q y b s) (by rw [← hbit, BitVec.ofNat_toNat])

/-- Settles O42: each of the two commands in range reads its bits of the byte into RES. -/
theorem bitGettersAnswerTheAddressedBits : Obligations.BitGettersAnswerTheAddressedBits :=
  ⟨fun _ y b _ hu _ => getbit_answers hu y b, fun _ y _ _ _ hu hw haw => getbits_answers hu hw haw y⟩

/-! ### The raw setters -/

/-- The isolation law (R135) for a command that completes with a bit range of its record written: the bits of the range are VAL's,
the other bits of the byte and the other bytes stay. -/
theorem isolation_of_setBitsIn {i : Instr} {q : Sel} {s : State} {y : ByteIx} {a w : Nat} {v : Byte} (haw : a + w ≤ 8)
    (h : ∃ t, CompletesOn q i s t ∧ t.sel q = setBitsIn y a w v (s.sel q)) :
    ∃ t, CompletesOn q i s t ∧ BitsReplaced (t.sel q)[y] (s.sel q)[y] a w v.toNat ∧
      ∀ j : ByteIx, j ≠ y → (t.sel q)[j] = (s.sel q)[j] := by
  obtain ⟨t, ht, hsel⟩ := h
  refine ⟨t, ht, ?_, fun j hj => ?_⟩ <;> rw [hsel]
  · exact bitsReplaced_setBitsIn haw y v _
  · exact getElem_setBitsIn_ne hj a w v _

/-- Settles O43: SETBIT writes VAL as a boolean to one bit, SETBITS writes VAL to a bit range, and both keep the isolation law. -/
theorem rawSettersChangeOnlyTheAddressedBits : Obligations.RawSettersChangeOnlyTheAddressedBits := by
  refine ⟨fun q y b v s hu hb => ?_, fun q y a w v s hu hw haw => ?_⟩
  · rw [← boolVal_toNat]
    exact isolation_of_setBitsIn hb (setbit_completesOn hu y b v)
  · exact isolation_of_setBitsIn haw (setbits_completesOn hu hw haw y v)

end Sys2Proof.Proofs

/-! ## Proofs: STAMP and the checksum laws -/

namespace Sys2Proof.Proofs

open Sys2Proof Sys2Proof.Machine Sys2Proof.Claims

/-! ### STAMP -/

/-- STAMP on a usable record completes with the record stamped (R142). -/
theorem stamp_completesOn {q : Sel} {s : State} (hu : Usable q s) :
    ∃ t, CompletesOn q (.stamp q) s t ∧ t.sel q = stampOf (s.sel q) :=
  completesOn_of_gated hu rfl rfl

/-- The byte a stamp writes is the sum of the record it finds (R142). -/
theorem getElem_stampOf_last (r : Record) : (stampOf r)[17] = sum8 r.toList := Vector.getElem_set_self _

/-- Settles O47: STAMP writes the stamped record, which differs from the record it finds in byte 17 alone. -/
theorem stampWritesOnlyTheChecksum : Obligations.StampWritesOnlyTheChecksum := by
  intro q s hu
  obtain ⟨t, ht, hsel⟩ := stamp_completesOn hu
  refine ⟨t, ht, ?_, fun j hj => ?_⟩ <;> rw [hsel]
  · rw [getElem_stampOf_last, toNat_sum8_eq_byteSum]
  · exact getElem_stampOf_ne hj _

/-! ### The checksum laws -/

/-- STAMP leaves its record usable. -/
theorem usable_of_stamp {q : Sel} {s t : State} (hu : Usable q s) (h : exec (.stamp q) s = .next t) : Usable q t := by
  cases (exec_stamp hu).symm.trans h
  rwa [Usable, complete_candValid, withSel_candValid]

/-- The record STAMP leaves is the one it finds, stamped (R142). -/
theorem sel_of_stamp {q : Sel} {s t : State} (hu : Usable q s) (h : exec (.stamp q) s = .next t) :
    t.sel q = stampOf (s.sel q) := by
  cases (exec_stamp hu).symm.trans h
  rw [complete_sel, withSel_sel_self]

/-- ISVALID after STAMP answers 1 (R144). -/
theorem isvalid_answers_one_of_stamp {q : Sel} {s t : State} (hu : Usable q s) (h : exec (.stamp q) s = .next t) :
    Answers (.isvalid q) t 1 false := by
  have hstamped : (t.sel q)[17].toNat = byteSum (t.sel q) := by
    rw [sel_of_stamp hu h]
    exact byteSum_stampOf _
  have hans := isvalid_answers (usable_of_stamp hu h)
  rwa [if_pos hstamped] at hans

/-- CSUM on a usable record writes its sum to RES (R141). -/
theorem exec_csum {q : Sel} {s : State} (hu : Usable q s) :
    exec (.csum q) s = .next ((s.withRes ((sum8 (s.sel q).toList).setWidth 16)).complete false) := by
  rw [exec, execCsum, gated_run ((readable_iff s q).2 hu)]

/-- STAMP after CSUM leaves byte 17 equal to the RES of CSUM (R144): CSUM keeps the record, STAMP keeps RES, and the 16 bits of RES
hold the sum whole. -/
theorem last_byte_eq_res_of_csum_stamp {q : Sel} {s t u : State} (hu : Usable q s) (hcsum : exec (.csum q) s = .next t)
    (hstamp : exec (.stamp q) t = .next u) : (u.sel q)[17].toNat = u.res.toNat := by
  cases (exec_csum hu).symm.trans hcsum
  have hu' : Usable q ((s.withRes ((sum8 (s.sel q).toList).setWidth 16)).complete false) := hu
  cases (exec_stamp hu').symm.trans hstamp
  have hbyte : (stampOf (s.sel q))[17].toNat = ((sum8 (s.sel q).toList).setWidth 16).toNat := by
    rw [getElem_stampOf_last, BitVec.toNat_setWidth_of_le (by decide)]
  simpa using hbyte

/-- Adding d to one byte of a list adds d to its sum. -/
theorem sum_set_add (l : List Byte) {n : Nat} (hn : n < l.length) (d : Byte) : (l.set n (l[n] + d)).sum = l.sum + d := by
  rw [List.sum_set', dif_pos hn, neg_add_cancel_left]

/-- Adding d to a byte below 17 adds d to the sum, mod 256 (R144): the byte is one of those summed. -/
theorem sum8_set_add (r : Record) {i : ByteIx} (hi : i ≠ 17) (d : Byte) :
    sum8 (r.set i (r[i] + d)).toList = sum8 r.toList + d := by
  have hlt : i.val < r.toList.dropLast.length := by
    have hne : i.val ≠ 17 := fun h => hi (Fin.ext h)
    have hle : i.val ≤ 17 := (recLen_iff i.val).1 i.isLt
    simp only [List.length_dropLast, Vector.length_toList, Config.recLen]
    omega
  have hbyte : r.toList.dropLast[i.val] = r[i] := List.getElem_dropLast hlt
  have hset : (r.set i (r[i] + d)).toList.dropLast = r.toList.dropLast.set i (r[i] + d) := by
    simp only [List.dropLast_eq_take, Vector.toList_set, List.length_set, List.take_set, Vector.length_toList]
  rw [sum8, sum8, hset, ← hbyte, sum_set_add _ hlt]

/-- Settles O48: STAMP is idempotent as every command but ENCODE is, and the other laws are the lemmas above. -/
theorem checksumLaws : Obligations.ChecksumLaws :=
  ⟨fun q s t hu h => ⟨everyCommandButEncodeIsIdempotent (.stamp q) s t id h, isvalid_answers_one_of_stamp hu h⟩,
    fun _ _ _ _ => last_byte_eq_res_of_csum_stamp, fun r _ d hi => sum8_set_add r hi d⟩

end Sys2Proof.Proofs

/-! ## Proofs: the pulse encoder -/

namespace Sys2Proof.Proofs

open Sys2Proof Sys2Proof.Machine Sys2Proof.Claims

/-! ### The frame -/

/-- A frame is 146 pairs (R150). -/
@[simp] theorem frameOf_length (p : Config.Params) (r : Record) : (frameOf p r).length = 146 := by
  simp [frameOf]

/-- Pair k + 1 of a frame is the pair of its k-th data bit (R150). -/
theorem frameOf_get_data (p : Config.Params) (r : Record) {k : Nat} (hk : k < 144) :
    (frameOf p r)[k + 1]? = some (bitPulse p (wireBit r k)) := by
  have hlt : k < ((wireBits r).map (bitPulse p)).length := by simpa using hk
  rw [frameOf, List.singleton_append, List.cons_append, List.getElem?_cons_succ, List.getElem?_append_left hlt,
    List.getElem?_map, wireBits_get r k hk]
  rfl

/-- Pair 145 of a frame is the trailing mark and the gap (R150). -/
theorem frameOf_get_trailer (p : Config.Params) (r : Record) : (frameOf p r)[145]? = some ⟨p.trailMarkUs, p.gapUs⟩ := by
  have hlen : (([⟨p.hdrMarkUs, p.hdrSpaceUs⟩] : List Pulse) ++ (wireBits r).map (bitPulse p)).length = 145 := by simp
  rw [frameOf, ← hlen, List.getElem?_concat_length]

/-- Settles O50: pair 0 is the header by definition of the frame, the data pairs and the trailer are the lemmas above. -/
theorem frameCarriesTheBitsInWireOrder : Obligations.FrameCarriesTheBitsInWireOrder := fun p r =>
  ⟨frameOf_length p r, rfl, fun _ => frameOf_get_data p r, frameOf_get_trailer p r⟩

/-! ### ENCODE -/

/-- Settles O49: a usable record passes the gate, and emitting and completing change only the log and STATUS. -/
theorem encodeAppendsTheFrame : Obligations.EncodeAppendsTheFrame := fun _ rep _ hu => exec_encode hu rep

/-! ### The 1 bits of a record -/

/-- Wire order keeps the number of 1 bits of a byte (R52). -/
theorem count_true_byteBits (b : Byte) : (byteBits b).count true = (List.range 8).countP b.getLsbD := by
  have horder : byteBits b = ((List.range 8).map b.getLsbD).reverse := rfl
  rw [horder, List.count_reverse, List.count, List.countP_map]
  simp [Function.comp_def]

/-- The 1 bits on the wire are the 1 bits of the 18 bytes (R52, R155). -/
theorem count_true_wireBits (r : Record) :
    (wireBits r).count true = (r.toList.map fun b => (List.range 8).countP b.getLsbD).sum := by
  simp only [wireBits, List.count_flatMap, Function.comp_def, count_true_byteBits]

/-- The bits on the wire that are not 1 are 0, of 144 (R7). -/
theorem count_false_wireBits (r : Record) : (wireBits r).count false = 144 - (wireBits r).count true := by
  have hall := List.count_true_add_count_false (wireBits r)
  rw [wireBits_length] at hall
  omega

/-! ### Durations -/

/-- A pair is two durations, a mark and a space (R58). -/
@[simp] theorem durations_length (ps : List Pulse) : (durations ps).length = 2 * ps.length := by
  simp [durations, List.length_flatMap, Nat.mul_comm]

@[simp] theorem durations_append (ps qs : List Pulse) : durations (ps ++ qs) = durations ps ++ durations qs :=
  List.flatMap_append

@[simp] theorem durations_cons (x : Pulse) (ps : List Pulse) :
    durations (x :: ps) = x.markUs :: x.spaceUs :: durations ps := rfl

@[simp] theorem durations_nil : durations [] = [] := rfl

/-- n copies back to back last n times as long as one (R152). -/
theorem sum_durations_copies (n : Nat) (ps : List Pulse) :
    (durations (List.replicate n ps).flatten).sum = n * (durations ps).sum := by
  induction n with
  | zero => simp
  | succ n ih =>
    rw [List.replicate_succ, List.flatten_cons, durations_append, List.sum_append, ih]
    ring

/-- The time of the pairs of some data bits: a mark each, a space by the bit's value (R150). -/
theorem sum_durations_data (p : Config.Params) (bits : List Bool) :
    (durations (bits.map (bitPulse p))).sum =
      bits.length * p.bitMarkUs + bits.count true * p.oneSpaceUs + bits.count false * p.zeroSpaceUs := by
  induction bits with
  | nil => simp
  | cons b bits ih => cases b <;> simp [ih, bitPulse] <;> ring

/-- The time of one frame (R150). -/
theorem sum_durations_frameOf (p : Config.Params) (r : Record) :
    (durations (frameOf p r)).sum =
      p.hdrMarkUs + p.hdrSpaceUs + 144 * p.bitMarkUs + (wireBits r).count true * p.oneSpaceUs +
        (wireBits r).count false * p.zeroSpaceUs + p.trailMarkUs + p.gapUs := by
  simp [frameOf, sum_durations_data]
  ring

/-- The train of one ENCODE is N copies of the frame (R58, R152). -/
theorem train_transmissionOf (p : Config.Params) (r : Record) (rep : Byte) :
    (transmissionOf p r rep).train =
      durations (List.replicate (max rep.toNat p.minRepeat) (frameOf p r)).flatten := rfl

/-- Settles O51: the train is N copies of the frame, whose 146 pairs and time are known, and its data bits are the record's. -/
theorem trainLengthAndTime : Obligations.TrainLengthAndTime := by
  rintro p r rep n c1 rfl rfl
  constructor
  · rw [train_transmissionOf, durations_length, List.length_flatten, List.map_replicate, List.sum_replicate, frameOf_length,
      smul_eq_mul]
    ring
  · rw [train_transmissionOf, sum_durations_copies, sum_durations_frameOf, count_false_wireBits, count_true_wireBits]

end Sys2Proof.Proofs

/-! ## Proofs: the pulse decoder -/

namespace Sys2Proof.Proofs

open Sys2Proof Sys2Proof.Machine Sys2Proof.Claims

/-! ### Tolerance matching and classification -/

/-- The model's match of an entry is the statements' nearness (R14). -/
theorem ticksMatch_iff_near (s : State) (i ref tol : Nat) :
    ticksMatch s.params (s.rawRead i) ref tol = true ↔ Near s i ref tol :=
  ticksMatch_iff ..

theorem ticksMatch_eq_false_iff (s : State) (i ref tol : Nat) :
    ticksMatch s.params (s.rawRead i) ref tol = false ↔ ¬ Near s i ref tol := by
  rw [← ticksMatch_iff_near, Bool.not_eq_true]

/-- A space that matches a reference is classified as a 1 exactly when the one window contains it (R165). -/
theorem classify_of_classified {s : State} {o k : Nat} {b : Bool} (h : Classified s o k)
    (hb : b = true ↔ Near s (spaceIx o k) s.params.oneSpaceUs s.params.bitTolUs) :
    classify s.params (s.rawRead (spaceIx o k)) = some b := by
  cases b with
  | true => rw [classify, if_pos ((ticksMatch_iff_near ..).2 (hb.1 rfl))]
  | false =>
    have hone : ¬ Near s (spaceIx o k) s.params.oneSpaceUs s.params.bitTolUs := fun hn => Bool.false_ne_true (hb.2 hn)
    rw [classify, if_neg fun hm => hone ((ticksMatch_iff_near ..).1 hm),
      if_pos ((ticksMatch_iff_near ..).2 (h.resolve_left hone))]

/-- A space that matches neither reference has no bit (R165). -/
theorem classify_of_not_classified {s : State} {o k : Nat} (h : ¬ Classified s o k) :
    classify s.params (s.rawRead (spaceIx o k)) = none := by
  obtain ⟨hone, hzero⟩ := not_or.1 h
  rw [classify, if_neg fun hm => hone ((ticksMatch_iff_near ..).1 hm),
    if_neg fun hm => hzero ((ticksMatch_iff_near ..).1 hm)]

theorem isSome_classify {s : State} {o k : Nat} (h : Classified s o k) :
    (classify s.params (s.rawRead (spaceIx o k))).isSome = true := by
  rw [classify_of_classified h (ticksMatch_iff_near ..)]
  rfl

/-! ### DECODE's checks, one equation for each ending -/

theorem decodeCapture_of_length {nbits : Nat} (h : nbits ≠ 144) (s : State) (o : Nat) :
    decodeCapture s nbits o = .error .length := if_pos h

theorem decodeCapture_of_no_mark {s : State} {o : Nat} (hlen : s.rawLen.toNat ≤ o) :
    decodeCapture s 144 o = .error .short := by
  simp [decodeCapture, hlen]

theorem decodeCapture_of_far_mark {s : State} {o : Nat} (hlen : o < s.rawLen.toNat)
    (hmark : ¬ Near s o s.params.hdrMarkUs s.params.hdrTolUs) : decodeCapture s 144 o = .error .header := by
  rw [← ticksMatch_eq_false_iff] at hmark
  simp [decodeCapture, hlen, hmark]

section
variable {s : State} {o : Nat} (hmark : Near s o s.params.hdrMarkUs s.params.hdrTolUs)
include hmark

theorem decodeCapture_of_no_space (hlen : s.rawLen.toNat = o + 1) : decodeCapture s 144 o = .error .short := by
  rw [← ticksMatch_iff_near] at hmark
  simp [decodeCapture, hlen, hmark]

theorem decodeCapture_of_far_space (hlen : o + 1 < s.rawLen.toNat)
    (hspace : ¬ Near s (o + 1) s.params.hdrSpaceUs s.params.hdrTolUs) : decodeCapture s 144 o = .error .header := by
  rw [← ticksMatch_iff_near] at hmark
  rw [← ticksMatch_eq_false_iff] at hspace
  simp [decodeCapture, Nat.not_le.2 hlen, Nat.not_le.2 (Nat.lt_of_succ_lt hlen), hmark, hspace]

end

/-- Past a header that matches, DECODE is the walk over the data bits and byte assembly (R164, R166). -/
theorem decodeCapture_of_headerOk {s : State} {o : Nat} (h : HeaderOk s o) :
    decodeCapture s 144 o = (decodeBits s o 144 0).map recordOfBits := by
  obtain ⟨hlen, hmark, hspace⟩ := h
  rw [← ticksMatch_iff_near] at hmark hspace
  simp only [decodeCapture, hmark, hspace, Nat.not_le.2 hlen, Nat.not_le.2 (Nat.lt_of_succ_lt hlen)]
  cases decodeBits s o 144 0 <;> rfl

/-- DECODE with E_HEADER and a matching header mark has found a header space out of tolerance: the walk over the data bits has
other codes. -/
theorem far_space_of_header_error {s : State} {o : Nat} (hlen : o < s.rawLen.toNat)
    (hmark : Near s o s.params.hdrMarkUs s.params.hdrTolUs) (h : decodeCapture s 144 o = .error .header) :
    o + 1 < s.rawLen.toNat ∧ ¬ Near s (o + 1) s.params.hdrSpaceUs s.params.hdrTolUs := by
  by_cases hlen' : s.rawLen.toNat = o + 1
  · rw [decodeCapture_of_no_space hmark hlen'] at h
    cases h
  · have hpresent : o + 1 < s.rawLen.toNat := by omega
    refine ⟨hpresent, fun hspace => ?_⟩
    rw [decodeCapture_of_headerOk ⟨hpresent, hmark, hspace⟩] at h
    cases hd : decodeBits s o 144 0 with
    | ok bits => rw [hd] at h; cases h
    | error c =>
      rw [hd] at h
      cases h
      cases decodeBits_error s o 144 0 _ hd <;> contradiction

/-- Where the walk is past the spaces before bit k, DECODE fails as the walk does from bit k on (R160). -/
theorem decodeCapture_of_walk_error {s : State} {o k : Nat} {c : Code} (hk : k < 144) (hh : HeaderOk s o)
    (hpre : ∀ j < k, spaceIx o j < s.rawLen.toNat ∧ Classified s o j)
    (hstop : ∀ n, decodeBits s o (n + 1) k = .error c) : decodeCapture s 144 o = .error c := by
  have hwalk : decodeBits s o 144 0 = .error c := by
    refine decodeBits_stop s o 144 0 k c hk (fun j hj => ?_) ?_ <;> rw [Nat.zero_add]
    · exact (hpre j hj).imp_right isSome_classify
    · rw [show 144 - k = 143 - k + 1 by omega]
      exact hstop _
  rw [decodeCapture_of_headerOk hh, hwalk]
  rfl

/-- The walk stops with E_SHORT at a space that is missing (R162). -/
theorem decodeBits_of_missing {s : State} {o k : Nat} (n : Nat) (h : s.rawLen.toNat ≤ spaceIx o k) :
    decodeBits s o (n + 1) k = .error .short := by
  rw [decodeBits, space_index, if_pos h]

/-- The walk stops with E_NOMATCH at a space that matches neither reference (R165). -/
theorem decodeBits_of_not_classified {s : State} {o k : Nat} (n : Nat) (hlen : spaceIx o k < s.rawLen.toNat)
    (h : ¬ Classified s o k) : decodeBits s o (n + 1) k = .error .noMatch := by
  simp only [decodeBits, space_index, if_neg (Nat.not_le.2 hlen), classify_of_not_classified h]

/-- DECODE accepts a capture of 290 entries with a matching header whose spaces are classified as the bits of a record, and the
record is that one: byte assembly undoes wire order (R166). -/
theorem decodeCapture_of_classify {s : State} {o : Nat} {r : Record} (hlen : o + 290 ≤ s.rawLen.toNat) (hh : HeaderOk s o)
    (hbits : ∀ k < 144, classify s.params (s.rawRead (spaceIx o k)) = some (wireBit r k)) :
    decodeCapture s 144 o = .ok r := by
  have hwalk : decodeBits s o 144 0 = .ok (wireBits r) := by
    refine (decodeBits_ok_iff ..).2 ⟨wireBits_length r, fun k hk => ?_⟩
    rw [Nat.zero_add, wireBits_get r k hk]
    exact ⟨by omega, hbits k hk⟩
  rw [decodeCapture_of_headerOk hh, hwalk, Except.map, recordOfBits_wireBits]

/-! ### DECODE's failures -/

/-- DECODE ends as its checks do (R168). -/
theorem decodeFailsWith_of_error {s : State} {n o : Nat} {c : Code} (strict : Bool) (h : decodeCapture s n o = .error c) :
    DecodeFailsWith c strict n o s := exec_decode_of_error strict h

/-- Settles O28: of the ways a command ends, only DECODE's failure has one of its codes. -/
theorem decodeFailureChangesOnlyCandValidAndCode : Obligations.DecodeFailureChangesOnlyCandValidAndCode := by
  intro i s t h hf
  cases effect_of_exec h with
  | undecoded st n o c hi hd => exact ⟨hi ▸ trivial, rfl⟩
  | _ => simp [State.decodeFailed] at hf

/-- Settles O54: one ending of DECODE's checks for each clause; the two of the walk at the space where it stops. -/
theorem decodeReportsTheFirstFailure : Obligations.DecodeReportsTheFirstFailure := by
  refine fun s strict o => ⟨fun nbits h => ?_, fun hlen => ?_, fun hlen hmark => ?_, fun hlen hmark => ?_,
    fun hlen hmark hspace => ?_, fun k hk hh hpre hend => ?_, fun k hk hh hpre hlen hno => ?_⟩ <;>
    apply decodeFailsWith_of_error
  · exact decodeCapture_of_length h s o
  · exact decodeCapture_of_no_mark hlen
  · exact decodeCapture_of_far_mark hlen hmark
  · exact decodeCapture_of_no_space hmark hlen
  · exact decodeCapture_of_far_space hmark hlen hspace
  · exact decodeCapture_of_walk_error hk hh hpre fun n => decodeBits_of_missing n hend
  · have hin : ∀ j < k, spaceIx o j < s.rawLen.toNat := fun j hj => by simp only [spaceIx] at hlen ⊢; omega
    exact decodeCapture_of_walk_error hk hh (fun j hj => ⟨hin j hj, hpre j hj⟩) fun n =>
      decodeBits_of_not_classified n hlen hno

/-- Settles O57: a mark the tolerance away is near, so a later E_HEADER is the space's; one microsecond more is not near. -/
theorem headerToleranceIsInclusive : Obligations.HeaderToleranceIsInclusive := by
  intro s strict o hlen
  refine ⟨fun hexact => ?_, fun hover => ?_⟩
  · have hmark : Near s o s.params.hdrMarkUs s.params.hdrTolUs := by rw [Near]; omega
    rcases exec_decode_cases strict 144 o s with ⟨r, hd, he⟩ | ⟨c, hd, he⟩
    · exact ⟨_, he, nofun⟩
    · exact ⟨_, he, fun hc => far_space_of_header_error hlen hmark (hd.trans (congrArg _ hc))⟩
  · have hmark : ¬ Near s o s.params.hdrMarkUs s.params.hdrTolUs := by rw [Near]; omega
    exact decodeFailsWith_of_error strict (decodeCapture_of_far_mark hlen hmark)

/-! ### What DECODE does not look at -/

/-- Settles O55: the meaning of DECODE does not use STRICT. -/
theorem strictChangesNothing : Obligations.StrictChangesNothing := fun _ _ _ => rfl

/-- DECODE's checks read only the entries below o + 290 that lie in the capture (R162, R171). -/
theorem decodeCapture_congr_frame {s t : State} {nbits o : Nat} (hp : t.params = s.params)
    (hlen : min t.rawLen.toNat (o + 290) = min s.rawLen.toNat (o + 290))
    (hraw : ∀ j < 290, o + j < s.rawLen.toNat → t.rawRead (o + j) = s.rawRead (o + j)) :
    decodeCapture t nbits o = decodeCapture s nbits o := by
  have hle : ∀ j < 290, t.rawLen.toNat ≤ o + j ↔ s.rawLen.toNat ≤ o + j := fun j hj => by omega
  have hwalk : decodeBits t o 144 0 = decodeBits s o 144 0 := by
    refine decodeBits_congr s t o 144 0 hp (fun k hk => ?_) fun k hk hin => ?_
    · rw [Nat.add_assoc]
      exact hle _ (by omega)
    · rw [Nat.add_assoc] at hin ⊢
      exact hraw _ (by omega) hin
  have hmark : t.rawLen.toNat ≤ o ↔ s.rawLen.toNat ≤ o := hle 0 (by decide)
  simp only [decodeCapture, hp, hmark, hle 1 (by decide), hwalk]
  by_cases hend : s.rawLen.toNat ≤ o
  · simp only [if_pos hend]
  · have hread : t.rawRead o = s.rawRead o := hraw 0 (by decide) (Nat.lt_of_not_le hend)
    rw [hread]
    by_cases hend' : s.rawLen.toNat ≤ o + 1
    · simp only [if_pos hend']
    · rw [hraw 1 (by decide) (Nat.lt_of_not_le hend')]

/-- Settles O56: the checks see the two captures alike, and DECODE writes neither. -/
theorem decodeReadsOnlyTheFrame : Obligations.DecodeReadsOnlyTheFrame := by
  intro s t strict nbits o m n hlen hraw h
  have hcap : decodeCapture { s with raw := m, rawLen := n } nbits o = decodeCapture s nbits o :=
    decodeCapture_congr_frame rfl hlen hraw
  rcases exec_decode_cases strict nbits o s with ⟨r, hd, he⟩ | ⟨c, hd, he⟩ <;> cases he.symm.trans h
  · exact exec_decode_of_ok strict (hcap.trans hd)
  · exact exec_decode_of_error strict (hcap.trans hd)

/-! ### The bits DECODE assembles -/

/-- Any 144 bits are the wire bits of a record (R166). -/
theorem exists_wireBit_eq (f : Nat → Bool) : ∃ r, ∀ k < 144, wireBit r k = f k := by
  refine ⟨recordOfBits ((List.range 144).map f), fun k hk => ?_⟩
  have hget := wireBits_get (recordOfBits ((List.range 144).map f)) k hk
  rw [wireBits_recordOfBits _ (by simp)] at hget
  simpa [hk, wireBit] using hget.symm

/-- Settles O53: the record whose bits say which spaces the one window contains is the one DECODE assembles. -/
theorem decodeAssemblesTheClassifiedBits : Obligations.DecodeAssemblesTheClassifiedBits := by
  intro s strict o hlen hh hclass
  obtain ⟨r, hr⟩ := exists_wireBit_eq fun k =>
    ticksMatch s.params (s.rawRead (spaceIx o k)) s.params.oneSpaceUs s.params.bitTolUs
  have hone : ∀ k < 144, (wireBit r k = true ↔ Near s (spaceIx o k) s.params.oneSpaceUs s.params.bitTolUs) :=
    fun k hk => by rw [hr k hk, ticksMatch_iff_near]
  have hcap := decodeCapture_of_classify hlen hh fun k hk => classify_of_classified (hclass k hk) (hone k hk)
  exact ⟨_, exec_decode_of_ok strict hcap, rfl, hone⟩

/-! ### The round trip -/

/-- The space of a pair is the duration after its mark (R58). -/
theorem durations_get_space (ps : List Pulse) (i : Nat) : (durations ps)[2 * i + 1]? = ps[i]?.map Pulse.spaceUs := by
  induction ps generalizing i with
  | nil => rfl
  | cons x ps ih =>
    cases i with
    | zero => rfl
    | succ i => exact ih i

/-- Duration 3 + 2 k of a frame is the space of its k-th data bit (R150). -/
theorem durations_frameOf_get_data_space (p : Config.Params) (r : Record) {k : Nat} (hk : k < 144) :
    (durations (frameOf p r))[3 + 2 * k]? = some (if wireBit r k then p.oneSpaceUs else p.zeroSpaceUs) := by
  rw [show 3 + 2 * k = 2 * (k + 1) + 1 by omega, durations_get_space, frameOf_get_data p r hk]
  rfl

/-- The noisy half of the round trip (R172): the header is within tolerance, and each space is classified as its bit. -/
theorem exec_decode_of_near_frame {s : State} {r : Record} {o : Nat} (strict : Bool) (hlen : o + 290 ≤ s.rawLen.toNat)
    (hheader : ∀ j < 2, ∀ d, (durations (frameOf s.params r))[j]? = some d → Near s (o + j) d s.params.hdrTolUs)
    (hspaces : ∀ j < 290, 3 ≤ j → j % 2 = 1 → ∀ d, (durations (frameOf s.params r))[j]? = some d →
      Near s (o + j) d s.params.bitTolUs)
    (hzero : ∀ k < 144, wireBit r k = false → ¬ Near s (spaceIx o k) s.params.oneSpaceUs s.params.bitTolUs) :
    exec (.decode strict 144 o) s = .next { s with cand := r, candValid := true, code := .ok, unknown := false } := by
  have hh : HeaderOk s o := ⟨by omega, hheader 0 (by decide) _ rfl, hheader 1 (by decide) _ rfl⟩
  have hspace : ∀ k < 144, Near s (spaceIx o k)
      (if wireBit r k then s.params.oneSpaceUs else s.params.zeroSpaceUs) s.params.bitTolUs := fun k hk => by
    rw [spaceIx, Nat.add_assoc]
    exact hspaces _ (by omega) (by omega) (by omega) _ (durations_frameOf_get_data_space _ r hk)
  refine exec_decode_of_ok strict (decodeCapture_of_classify hlen hh fun k hk => ?_)
  have hk' := hspace k hk
  cases hb : wireBit r k with
  | true =>
    rw [hb] at hk'
    exact classify_of_classified (.inl hk') (iff_of_true rfl hk')
  | false =>
    rw [hb] at hk'
    exact classify_of_classified (.inr hk') (iff_of_false nofun (hzero k hk hb))

/-- An entry that holds a duration in whole ticks stands for just that duration (R14). -/
theorem near_iff_of_exact {s : State} {i d ref tol : Nat} (hd : s.params.tickUs ∣ d)
    (hread : s.rawRead i = d / s.params.tickUs) : Near s i ref tol ↔ d ≤ ref + tol ∧ ref ≤ d + tol := by
  rw [Near, hread, Nat.div_mul_cancel hd]

/-- The exact half of the round trip (R172): a duration is near itself, and the zero space is too far from the one space. -/
theorem exec_decode_of_exact_frame {s : State} {r : Record} {o : Nat} (strict : Bool) (hlen : o + 290 ≤ s.rawLen.toNat)
    (hdvd : ∀ d ∈ durations (frameOf s.params r), s.params.tickUs ∣ d)
    (hapart : s.params.bitTolUs <
      (s.params.oneSpaceUs - s.params.zeroSpaceUs) + (s.params.zeroSpaceUs - s.params.oneSpaceUs))
    (hread : ∀ j < 290, ∀ d, (durations (frameOf s.params r))[j]? = some d → s.rawRead (o + j) = d / s.params.tickUs) :
    exec (.decode strict 144 o) s = .next { s with cand := r, candValid := true, code := .ok, unknown := false } := by
  have hnear : ∀ j < 290, ∀ d, (durations (frameOf s.params r))[j]? = some d → ∀ ref tol,
      (Near s (o + j) ref tol ↔ d ≤ ref + tol ∧ ref ≤ d + tol) := fun j hj d hd _ _ =>
    near_iff_of_exact (hdvd d (List.mem_of_getElem? hd)) (hread j hj d hd)
  refine exec_decode_of_near_frame strict hlen (fun j hj d hd => ?_) (fun j hj _ _ d hd => ?_) fun k hk hb => ?_
  · exact (hnear j (by omega) d hd ..).2 (by omega)
  · exact (hnear j hj d hd ..).2 (by omega)
  · have hd := durations_frameOf_get_data_space s.params r hk
    rw [hb, if_neg Bool.false_ne_true] at hd
    rw [spaceIx, Nat.add_assoc, hnear _ (by omega) _ hd]
    omega

/-- Settles O58: the two halves. -/
theorem decodeRecoversTheEncodedRecord : Obligations.DecodeRecoversTheEncodedRecord :=
  fun _ _ strict _ hlen => ⟨exec_decode_of_near_frame strict hlen, exec_decode_of_exact_frame strict hlen⟩

/-- Settles O59: the transmission ENCODE appends carries the frame of the record, and its exact ticks decode to that record. -/
theorem noiselessRoundTrip : Obligations.NoiselessRoundTrip := by
  intro s t u q rep strict o tx hu henc hlog hp hlen hdvd hapart hread
  cases (exec_encode hu rep).symm.trans henc
  obtain rfl : transmissionOf s.params (s.sel q) rep = tx := by simpa using hlog
  rw [← hp] at hdvd hapart hread
  exact exec_decode_of_exact_frame strict hlen hdvd hapart hread

end Sys2Proof.Proofs

/-! ## Proofs: how commands end -/

namespace Sys2Proof.Proofs

open Sys2Proof Sys2Proof.Machine Sys2Proof.Claims

/-! ### Every word ends -/

/-- Every code is OK, one of the three rejections or one of DECODE's four failures (R27). -/
theorem code_cases (t : State) : t.code = .ok ∨ t.rejected ∨ t.decodeFailed := by
  unfold State.rejected State.decodeFailed
  cases t.code <;> simp

/-- A word written to CMD, legal or not, answers a next state (R180). -/
theorem issueCommand_answers (w : Word) (s : State) : ∃ t, issueCommand w s = .next t := by
  rcases issueCommand_cases w s with ⟨i, -, he⟩ | ⟨e, -, he⟩
  · obtain ⟨t, ht, -⟩ := exec_effect i s
    exact ⟨t, he.trans ht⟩
  · exact ⟨_, he⟩

/-- Settles O19: the step issues the word, and every word answers a next state. -/
theorem everyCommandEndsWithACode : Obligations.EveryCommandEndsWithACode := by
  intro s w rest hp
  obtain ⟨t, ht⟩ := issueCommand_answers w { s with pending := rest }
  exact ⟨t, (step_of_pending hp).trans ht, code_cases t⟩

/-! ### Rejected commands -/

/-- A command whose code sets ILL failed its range check or its gate, and so wrote STATUS only (R182). -/
theorem effect_rejected {i : Instr} {s t : State} (h : Effect i s t) (hrej : t.rejected) :
    t = { s with code := t.code, unknown := false, ill := true } := by
  rw [rejected_iff_setsIll] at hrej
  cases h with
  | outOfRange | gatedOff => exact raiseFail_of_setsIll hrej s
  | undecoded st n o c hi hd => exact absurd ((setsIll_of_decodeCapture_error hd).symm.trans hrej) Bool.false_ne_true
  | answered | wrote | emitted | created | decoded => exact absurd hrej Bool.false_ne_true

/-- Settles O27: a legal word by the ways its command can be rejected, an illegal word by its failure. -/
theorem rejectedCommandChangesOnlyStatus : Obligations.RejectedCommandChangesOnlyStatus := by
  intro s t w rest hp h hrej
  have hissue : issueCommand w { s with pending := rest } = .next t := (step_of_pending hp).symm.trans h
  rcases issueCommand_cases w { s with pending := rest } with ⟨i, -, he⟩ | ⟨e, -, he⟩
  · exact effect_rejected (effect_of_exec (he.symm.trans hissue)) hrej
  · cases he.symm.trans hissue
    exact raiseFail_of_setsIll rfl _

/-! ### The gate and the checks -/

/-- Settles O29: of the ways a command that selects CAND ends, all but the two failed checks need CAND readable. -/
theorem noCommandUsesAnInvalidCandidate : Obligations.NoCommandUsesAnInvalidCandidate := by
  intro i s hcand hv hr
  have hgate : ∀ q, selOf i = some q → s.readable q ≠ true := by
    intro q hq hread
    cases hcand.symm.trans hq
    exact absurd (hv.symm.trans hread) Bool.false_ne_true
  obtain ⟨t, hexec, heffect⟩ := exec_effect i s
  rw [RejectedWith, hexec]
  cases heffect with
  | gatedOff => rw [raiseFail_of_setsIll rfl]
  | outOfRange h => exact absurd hr h
  | answered q _ _ _ hq hread | wrote q _ _ hq hread => exact absurd hread (hgate q hq)
  | emitted q rep hi hread => exact absurd hread (hgate q (hi ▸ rfl))
  | created hi | decoded _ _ _ _ hi | undecoded _ _ _ _ hi => cases hi ▸ hcand

/-- Settles O31: of the ways a command ends, the two failed checks contradict the hypotheses and DECODE's endings are
DECODE's own; the others complete. -/
theorem checkedCommandsComplete : Obligations.CheckedCommandsComplete := by
  intro i s hdec hr husable
  obtain ⟨t, hexec, heffect⟩ := exec_effect i s
  refine ⟨t, hexec, ?_⟩
  cases heffect with
  | outOfRange h => exact absurd hr h
  | gatedOff _ hq hv => exact absurd (hv.symm.trans (husable .cand hq rfl)) Bool.false_ne_true
  | decoded _ _ _ _ hi | undecoded _ _ _ _ hi => exact absurd (hi ▸ trivial) hdec
  | answered | wrote | emitted | created => rfl

end Sys2Proof.Proofs

/-! ## Proofs: reset -/

namespace Sys2Proof.Proofs

open Sys2Proof Sys2Proof.Machine Sys2Proof.Claims

/-! ### The parameters -/

/-- However a step ends in a next state, it leaves the parameters as they are (R203). -/
theorem moved_params {s t : State} (h : Moved s t) : t.params = s.params := by
  cases h with
  | ran w rest i t hp hd he =>
    obtain ⟨-, -, hparams, -, -⟩ := effect_frame he
    exact hparams
  | illegal w rest e hp hd => exact raiseFail_params _ _
  | wasReset rest hp => rfl
  | idled hp | wroteRaw _ _ _ hp | wroteRawLen _ _ hp | observed _ hp => rfl

/-- Settles O16: a command by the frame of every effect, the reset event because it takes the parameters over, and the other
moves because they write other elements. -/
theorem noStepChangesTheParameters : Obligations.NoStepChangesTheParameters :=
  fun _ _ h => moved_params (moved_of_step h)

/-! ### The reset values -/

/-- Settles O12: REC is the stamped pattern, and the other elements are zero by the definition of the start state. -/
theorem startStateHasTheResetValues : Obligations.StartStateHasTheResetValues :=
  ⟨resetRecord_eq_recAtReset, rfl, rfl, rfl, rfl, rfl⟩

/-- Settles O11: apart from the parameters, the coming moves and the count of resets, the state after the reset event is the
start state. -/
theorem resetInputPutsTheResetValues : Obligations.ResetInputPutsTheResetValues := by
  intro s rest hp
  obtain ⟨hrecord, hcandValid, hres, hstatus, hrawLen, htxlog⟩ := startStateHasTheResetValues
  exact ⟨resetEvent { s with pending := rest }, step_of_pending hp,
    hrecord, hcandValid, hres, hstatus, hrawLen, htxlog, rfl, rfl⟩

/-! ### The getters at reset -/

/-- REC can always be read (R183). -/
theorem usable_record (s : State) : Usable .record s := nofun

/-- The reset record passes the check (R201): it is stamped. -/
theorem isvalid_answers_at_reset : Answers (.isvalid .record) State.reset 1 false := by
  have hvalid : (State.reset.sel .record)[17].toNat = byteSum (State.reset.sel .record) :=
    (stamped_iff_byteSum _).1 stamped_resetRecord
  simpa only [if_pos hvalid] using isvalid_answers (usable_record State.reset)

/-- Settles O13: each getter by its rule; the value it answers evaluates at the byte of the reset record that it reads. -/
theorem gettersAfterResetReadTheDefaultCommand : Obligations.GettersAfterResetReadTheDefaultCommand := by
  have hu := usable_record State.reset
  obtain ⟨hpower, hturbo, hlight, hsleep⟩ := flagGettersAnswerBitFive _ _ hu
  obtain ⟨hmode, hfan, hswing⟩ := enumGettersFallBackToAuto
  have hraw {w : Nat} (hw : 1 ≤ w) (hw8 : 0 + w ≤ 8) := getbits_answers hu hw hw8
  exact ⟨isvalid_answers_at_reset, hpower,
    hraw (by decide) (by decide) 6, (hmode _ _ hu).2 (by decide), gettempAnswersByteSevenPlusSixteen _ _ hu,
    hraw (by decide) (by decide) 9, (hfan _ _ hu).2 (by decide),
    hraw (by decide) (by decide) 10, (hswing _ _ hu).2 (by decide), hturbo, hlight, hsleep⟩

end Sys2Proof.Proofs
